-- ==== Sys2Proof/Word.lean ====
section
/-! DEFINITION. The widths of the block: the 128-bit word of every coefficient, operand and result
(00_scope.md R6), the byte of the text buffer (20_memory.md R50), the 32-bit command word (30_encoding.md R71)
and the bounds of the signed 128-bit range (R6). -/

namespace Sys2Proof

/-- The native word of the block, `W` = 128 bits (R6). -/
abbrev Word := BitVec 128

/-- One location of the text buffer, and the width of `RSC` (R50, R20). -/
abbrev Byte := BitVec 8

/-- One command word (R71). -/
abbrev CmdWord := BitVec 32

/-- `I128_MAX` of R6, 2^127 - 1. -/
abbrev i128Max : Int := 170141183460469231731687303715884105727

/-- `I128_MIN` of R6, -2^127. -/
abbrev i128Min : Int := -170141183460469231731687303715884105728

end Sys2Proof
end

