-- ==== Sys2Proof/Config.lean ====
section
/-! DEFINITION. What an implementation of the block fixes: `TEXT_MAX`, the one OPEN parameter of the spec
(00_scope.md R6, 92_eei_decisions.md D20). -/

namespace Sys2Proof

/-- The configuration of one block. It is an argument of the model: a state carries it, no step changes it, and a
statement about every state holds for every `TEXT_MAX`. -/
structure Config where
  /-- `TEXT_MAX`, the capacity of the text buffer in bytes (R6, R50). -/
  textMax : Nat
deriving DecidableEq, Repr

/-- The default of R6 and D20: 256 bytes. DESIGN CHOICE (log entry 1): the machine after reset is given the default. -/
def Config.standard : Config where
  textMax := 256

/-- The values of `TEXT_MAX` that D20 admits: 1 to 65535. -/
abbrev Config.wf (c : Config) : Prop := 1 ≤ c.textMax ∧ c.textMax ≤ 65535

end Sys2Proof
end

