-- ==== Sys2Proof/Syntax.lean ====
section
/-! DEFINITION. The commands of the block as data: one constructor for each row of spec/opcode_table.json
(30_encoding.md R74, R75), and the closed enumeration of rounding modes (R76). -/

namespace Sys2Proof

/-- The nine rounding modes, in the order of R76. -/
inductive RoundingMode where
  | floor
  | ceiling
  | up
  | down
  | halfUp
  | halfDown
  | halfEven
  | halfCeiling
  | halfFloor
deriving DecidableEq, Repr

/-- The number of a mode in the field `mode` of a command word (R76). -/
def RoundingMode.number : RoundingMode → Nat
  | .floor => 0
  | .ceiling => 1
  | .up => 2
  | .down => 3
  | .halfUp => 4
  | .halfDown => 5
  | .halfEven => 6
  | .halfCeiling => 7
  | .halfFloor => 8

/-- The twelve commands. The 128-bit operands are not part of a command: each opcode reads fixed registers (R74).
Power indexes and scales are the unsigned fields `p` and `p2` (R73). -/
inductive Instr where
  /-- `TENPOW n` (R101) -/
  | tenpow (n : Nat)
  /-- `MULP10 n` (R102) -/
  | mulp10 (n : Nat)
  /-- `CMULP10 n` (R103) -/
  | cmulp10 (n : Nat)
  /-- `ADJ s1, s2` (R104) -/
  | adj (s1 s2 : Nat)
  /-- `CADJ s1, s2` (R105) -/
  | cadj (s1 s2 : Nat)
  /-- `SDIVF p` (R131) -/
  | sdivf (p : Nat)
  /-- `DMDF` (R132) -/
  | dmdf
  /-- `DIVMODF` (R152) -/
  | divmodf
  /-- `DIVR mode` (R163) -/
  | divr (mode : RoundingMode)
  /-- `SDIVR p, mode` (R164) -/
  | sdivr (p : Nat) (mode : RoundingMode)
  /-- `MDTPR p, mode` (R165) -/
  | mdtpr (p : Nat) (mode : RoundingMode)
  /-- `PARSE` (R185) -/
  | parse
deriving DecidableEq, Repr

end Sys2Proof
end

