-- ==== Sys2Proof/WellFormed.lean ====
section
/-! DEFINITION. Which terms of `Instr` are commands of the block: those whose number fields fit the 8-bit fields `p`
and `p2` of a command word (30_encoding.md R72, R73). A power index above 38 or a scale above 18 is well formed: the
word decodes and the command faults (R77). -/

namespace Sys2Proof

/-- A number that an 8-bit field of the command word can hold (R73). -/
def fitsByteField (n : Nat) : Bool := decide (n ≤ 255)

/-- A command that some command word stands for. -/
def Instr.wf : Instr → Bool
  | .tenpow n => fitsByteField n
  | .mulp10 n => fitsByteField n
  | .cmulp10 n => fitsByteField n
  | .adj s1 s2 => fitsByteField s1 && fitsByteField s2
  | .cadj s1 s2 => fitsByteField s1 && fitsByteField s2
  | .sdivf p => fitsByteField p
  | .dmdf => true
  | .divmodf => true
  | .divr _ => true
  | .sdivr p _ => fitsByteField p
  | .mdtpr p _ => fitsByteField p
  | .parse => true

end Sys2Proof
end

