-- ==== Sys2Proof/Decode.lean ====
section
/-! DEFINITION. The command word: the opcode map (30_encoding.md R75), decoding, total on all 2^32 words (R80), and the
encoder written from the field layout (R72). A command word is a value presented whole on the command port (R70), so no
byte order arises (20_memory.md R53). -/

namespace Sys2Proof

/-! ### The opcode map (R75) -/

/-- The twelve opcodes. -/
inductive Opcode where
  | tenpow
  | mulp10
  | cmulp10
  | adj
  | cadj
  | sdivf
  | dmdf
  | divmodf
  | divr
  | sdivr
  | mdtpr
  | parse
deriving DecidableEq, Repr

/-- All opcodes, in the order of R75. -/
def Opcode.all : List Opcode :=
  [.tenpow, .mulp10, .cmulp10, .adj, .cadj, .sdivf, .dmdf, .divmodf, .divr, .sdivr, .mdtpr, .parse]

/-- The column `op` of R75. -/
def Opcode.number : Opcode → BitVec 8
  | .tenpow => 0x01#8
  | .mulp10 => 0x02#8
  | .cmulp10 => 0x03#8
  | .adj => 0x04#8
  | .cadj => 0x05#8
  | .sdivf => 0x10#8
  | .dmdf => 0x11#8
  | .divmodf => 0x20#8
  | .divr => 0x30#8
  | .sdivr => 0x31#8
  | .mdtpr => 0x32#8
  | .parse => 0x40#8

/-- The column `match` of R75. -/
def Opcode.matchWord : Opcode → CmdWord
  | .tenpow => 0x00000001#32
  | .mulp10 => 0x00000002#32
  | .cmulp10 => 0x00000003#32
  | .adj => 0x00000004#32
  | .cadj => 0x00000005#32
  | .sdivf => 0x00000010#32
  | .dmdf => 0x00000011#32
  | .divmodf => 0x00000020#32
  | .divr => 0x00000030#32
  | .sdivr => 0x00000031#32
  | .mdtpr => 0x00000032#32
  | .parse => 0x00000040#32

/-- The column `mask` of R75. -/
def Opcode.mask : Opcode → CmdWord
  | .tenpow => 0xFF00FFFF#32
  | .mulp10 => 0xFF00FFFF#32
  | .cmulp10 => 0xFF00FFFF#32
  | .adj => 0x0000FFFF#32
  | .cadj => 0x0000FFFF#32
  | .sdivf => 0xFF00FFFF#32
  | .dmdf => 0xFFFFFFFF#32
  | .divmodf => 0xFFFFFFFF#32
  | .divr => 0xFFFFF0FF#32
  | .sdivr => 0xFF00F0FF#32
  | .mdtpr => 0xFF00F0FF#32
  | .parse => 0xFFFFFFFF#32

/-- The three commands with the extra condition `mode <= 8` (R75). -/
def Opcode.takesMode : Opcode → Bool
  | .divr => true
  | .sdivr => true
  | .mdtpr => true
  | .tenpow => false
  | .mulp10 => false
  | .cmulp10 => false
  | .adj => false
  | .cadj => false
  | .sdivf => false
  | .dmdf => false
  | .divmodf => false
  | .parse => false

/-- The opcode of a command. -/
def Instr.opcode : Instr → Opcode
  | .tenpow _ => .tenpow
  | .mulp10 _ => .mulp10
  | .cmulp10 _ => .cmulp10
  | .adj _ _ => .adj
  | .cadj _ _ => .cadj
  | .sdivf _ => .sdivf
  | .dmdf => .dmdf
  | .divmodf => .divmodf
  | .divr _ => .divr
  | .sdivr _ _ => .sdivr
  | .mdtpr _ _ => .mdtpr
  | .parse => .parse

/-! ### Fields of a command word (R72, R73) -/

/-- `cmd.op`, bits 7:0. -/
def opField (w : CmdWord) : BitVec 8 := w.extractLsb' 0 8

/-- `cmd.mode`, bits 11:8. -/
def modeField (w : CmdWord) : BitVec 4 := w.extractLsb' 8 4

/-- The reserved bits 15:12. -/
def rsvField (w : CmdWord) : BitVec 4 := w.extractLsb' 12 4

/-- `cmd.p`, bits 23:16. -/
def pField (w : CmdWord) : BitVec 8 := w.extractLsb' 16 8

/-- `cmd.p2`, bits 31:24. -/
def p2Field (w : CmdWord) : BitVec 8 := w.extractLsb' 24 8

/-- The mode of a number; 9 to 15 are none (R76). -/
def RoundingMode.ofNumber : Nat → Option RoundingMode
  | 0 => some .floor
  | 1 => some .ceiling
  | 2 => some .up
  | 3 => some .down
  | 4 => some .halfUp
  | 5 => some .halfDown
  | 6 => some .halfEven
  | 7 => some .halfCeiling
  | 8 => some .halfFloor
  | _ => none

/-! ### Decoding (R80) -/

/-- Why a word selects no command (R77): the step of R80 that rejects it. Each is `Fault(ILLEGAL_CMD)` at the block. -/
inductive IllegalWord where
  /-- step 1: `op` is not one of the twelve opcodes -/
  | unknownOpcode
  /-- step 2: a field that must be zero in this command, or `rsv`, is not zero -/
  | fieldNotZero
  /-- step 3: the command takes a mode and `mode` is 9 to 15 -/
  | noSuchMode
deriving DecidableEq, Repr

/-- What decoding a word gives. -/
inductive Decoded where
  | command (i : Instr)
  | illegal (why : IllegalWord)
deriving DecidableEq, Repr

/-- Step 1 of R80: the row whose `op` is bits 7:0. -/
def opcodeOf (op : BitVec 8) : Option Opcode := Opcode.all.find? fun o => o.number == op

/-- Step 3 of R80: the mode of the word, where the command takes one. A command that takes none ignores the answer. -/
def modeOf (o : Opcode) (w : CmdWord) : Option RoundingMode :=
  if o.takesMode then RoundingMode.ofNumber (modeField w).toNat else some .floor

/-- Step 4 of R80: the command of a row with its fields. -/
def commandOf (o : Opcode) (p p2 : Nat) (mode : RoundingMode) : Instr :=
  match o with
  | .tenpow => .tenpow p
  | .mulp10 => .mulp10 p
  | .cmulp10 => .cmulp10 p
  | .adj => .adj p p2
  | .cadj => .cadj p p2
  | .sdivf => .sdivf p
  | .dmdf => .dmdf
  | .divmodf => .divmodf
  | .divr => .divr mode
  | .sdivr => .sdivr p mode
  | .mdtpr => .mdtpr p mode
  | .parse => .parse

/-- Decoding a command word, total, in the order of R80. -/
def decode (w : CmdWord) : Decoded :=
  match opcodeOf (opField w) with
  | none => .illegal .unknownOpcode
  | some o =>
    if w &&& o.mask = o.matchWord then
      match modeOf o w with
      | none => .illegal .noSuchMode
      | some m => .command (commandOf o (pField w).toNat (p2Field w).toNat m)
    else .illegal .fieldNotZero

/-- The instruction decoded from a word of the opcode table's numbering; every row has 32 bits (R71), bit 0 the least
significant bit of the command word (R8). -/
def decodeTableWord (nbits w : Nat) : Option Instr :=
  match decode (BitVec.ofNat 32 (w % 2 ^ nbits)) with
  | .command i => some i
  | .illegal _ => none

/-! ### Encoding (R72, R74) -/

/-- The one format, most significant field first: `p2`, `p`, four zero bits, `mode`, `op` (R72). DESIGN CHOICE (log entry
21): a number that its field cannot hold keeps its low bits, 8 for `p` and `p2`; a well-formed command has none. -/
def packWord (op : BitVec 8) (mode p p2 : Nat) : CmdWord :=
  BitVec.ofNat 8 p2 ++ BitVec.ofNat 8 p ++ 0#4 ++ BitVec.ofNat 4 mode ++ op

/-- The command word of a command; a field it does not use is zero (R74). -/
def encode : Instr → CmdWord
  | .tenpow n => packWord 0x01#8 0 n 0
  | .mulp10 n => packWord 0x02#8 0 n 0
  | .cmulp10 n => packWord 0x03#8 0 n 0
  | .adj s1 s2 => packWord 0x04#8 0 s1 s2
  | .cadj s1 s2 => packWord 0x05#8 0 s1 s2
  | .sdivf p => packWord 0x10#8 0 p 0
  | .dmdf => packWord 0x11#8 0 0 0
  | .divmodf => packWord 0x20#8 0 0 0
  | .divr m => packWord 0x30#8 m.number 0 0
  | .sdivr p m => packWord 0x31#8 m.number p 0
  | .mdtpr p m => packWord 0x32#8 m.number p 0
  | .parse => packWord 0x40#8 0 0 0

end Sys2Proof
end

