-- ==== Sys2Proof/Machine/State.lean ====
section
/-! DEFINITION. The state of one block (10_state.md R20), the host's side of the interface (70_reset_and_hazards.md
R238; 10_state.md R27), the reasons a step can stop, and the state after reset (R32). -/

namespace Sys2Proof.Machine

/-! ### STATUS -/

/-- The closed set of parse error kinds, in the order of R25 (44_parser.md R184). -/
inductive ParseError where
  | emptyInput
  | noDigitsFound
  | malformedSignOrExponent
  | scaleExceedsMaximum
deriving DecidableEq, Repr

/-- The eight fault causes, in the order of their codes (60_exceptions.md R201). -/
inductive FaultCause where
  | illegalCmd
  | powRange
  | scaleRange
  | textRange
  | zeroDivisor
  | divisorSign
  | divOverflow
  | uncheckedOverflow
deriving DecidableEq, Repr

/-- The stored part of `STATUS` (R25). `V0`, `V1`, `VS` are the validity of the result registers and are stored there
(R22). The 32-bit word a host reads is `State.statusWord`. DESIGN CHOICE (log entry 9). -/
structure Status where
  /-- bit 3: the result is absent; for `CADJ`, the first coefficient overflowed -/
  ovf : Bool
  /-- bit 4: `CADJ`, the second coefficient overflowed -/
  ovfb : Bool
  /-- bits 7:5, `PERR`; none is 0 -/
  perr : Option ParseError
  /-- bits 8 and 12:9, `FAULT` and `FCAUSE`; none is no fault since reset -/
  fault : Option FaultCause
deriving DecidableEq, Repr

/-! ### Host actions (R238, R85, R86) -/

/-- The operand registers (R21). -/
inductive OperandReg where
  | a
  | b
  | c
deriving DecidableEq, Repr

/-- The registers the host cannot write (R34). -/
inductive ReadOnlyReg where
  | r0
  | r1
  | rsc
  | status
deriving DecidableEq, Repr

/-- The registers the host can read (R34, R85). -/
inductive HostReg where
  | a
  | b
  | c
  | r0
  | r1
  | rsc
  | status
  | tlen
deriving DecidableEq, Repr

/-- The conditions of `IFSET` (R86): a named bit of `STATUS`, or `PERR = k`. -/
inductive StatusTest where
  | v0
  | v1
  | vs
  | ovf
  | ovfb
  | fault
  | perrIs (k : BitVec 3)
deriving DecidableEq, Repr

/-- One line of a host script. The first group is the table of R238, every action the host can do to the block. The
second group is the host's own control for the pseudo-instructions of R86, which touches nothing in the block.
DESIGN CHOICE (log entries 2 and 12). -/
inductive HostAction where
  /-- `WR A, v`, `WR B, v`, `WR C, v` -/
  | writeOperand (r : OperandReg) (v : Word)
  /-- `WR TLEN, n` -/
  | writeTlen (n : BitVec 16)
  /-- `WB i, b` -/
  | writeText (i : Nat) (b : Byte)
  /-- a write to `R0`, `R1`, `RSC` or `STATUS`, which is ignored (R55) -/
  | writeReadOnly (r : ReadOnlyReg) (v : Word)
  /-- `RD r` -/
  | readReg (r : HostReg)
  /-- a read of `TXT[i]` -/
  | readText (i : Nat)
  /-- issue of a command word: a mnemonic line, or `CMD w` -/
  | issue (cmd : CmdWord)
  /-- `RESET` -/
  | reset
  /-- second half of `MOV r, …`: write the value read last to an operand register -/
  | writeLastRead (r : OperandReg)
  /-- `IFSET`: go on if the `STATUS` value read last meets the test, else pass over `n` lines -/
  | skipUnless (t : StatusTest) (n : Nat)
  /-- `ELSE`: pass over `n` lines -/
  | skip (n : Nat)
deriving DecidableEq, Repr

/-! ### State -/

/-- The text buffer: the bytes written since reset, by address (20_memory.md R50, R62), in one canonical form: addresses
strictly rising. An address that is not listed holds no value. -/
abbrev Memory := List Host.Cell

/-- The state. -/
structure State where
  /-- `A` (R21) -/
  a : Word
  /-- `B` (R21) -/
  b : Word
  /-- `C` (R21) -/
  c : Word
  /-- `R0`, none when invalid (R22, R24) -/
  r0 : Option Word
  /-- `R1`, none when invalid (R22, R24) -/
  r1 : Option Word
  /-- `RSC`, none when invalid (R22, R24) -/
  rsc : Option Byte
  /-- `STATUS` less the validity bits (R25) -/
  status : Status
  /-- `TLEN` (R29) -/
  tlen : BitVec 16
  /-- `TXT` (R30) -/
  txt : Memory
  /-- The configuration, fixed for the machine (R6). The model's own field (log entry 1). -/
  config : Config
  /-- The host's actions still to come, in their order (R58, R27). The model's own field (log entry 2). -/
  script : List HostAction
  /-- The values the host has read, newest first, each zero-extended to 128 bits. The model's own field (log entry 4). -/
  hostReads : List Word
deriving DecidableEq, Repr

/-! ### Stops -/

/-- A fault of the HOST SCRIPT: the script does what the spec gives no result for. The block's own faults are no stops:
they are next states with `STATUS.FAULT` set (60_exceptions.md R205; log entry 8). -/
inductive Fault where
  /-- The host reads `R0`, `R1` or `RSC` while it is invalid (R24, U1). Raised by the host's register read. Safe: the
  block drives unspecified bits, and no value is made up. -/
  | invalidResultRead (r : HostReg)
  /-- `TXT[i]` has not been written since reset (R62, U2). Raised by the host's text read and by `PARSE`. Safe. -/
  | unwrittenText (i : Nat)
deriving DecidableEq, Repr

/-- What the model has no meaning for. -/
inductive Refusal where
  /-- An instruction without a meaning yet; raised by an arm of `exec` only. Safe. No arm raises it. -/
  | notModelled (mnemonic : String)
  /-- The host accesses `TXT[i]` with `i >= TEXT_MAX`: the location does not exist (R54, U12). Raised by the host's text
  read and write. Safe. -/
  | noTextLocation (i : Nat)
  /-- A script line uses the value read last and nothing has been read (R86). Raised by `writeLastRead` and
  `skipUnless`. Safe. -/
  | noValueRead
deriving DecidableEq, Repr

/-- The outcome of one step or of one command. -/
abbrev StepOutcome := Host.Outcome State Fault Refusal

/-! ### Reset -/

/-- `STATUS` after reset: 0 (R32). -/
def Status.reset : Status where
  ovf := false
  ovfb := false
  perr := none
  fault := none

/-- The machine right after reset (R32, R230): operand registers and `TLEN` zero, results invalid, `STATUS` zero, no text
byte written. The host has an empty script and has read nothing (log entries 2 to 4), and `TEXT_MAX` is the default
(log entry 1). -/
def State.reset : State where
  a := 0#128
  b := 0#128
  c := 0#128
  r0 := none
  r1 := none
  rsc := none
  status := Status.reset
  tlen := 0#16
  txt := []
  config := Config.standard
  script := []
  hostReads := []

end Sys2Proof.Machine
end

