-- ==== Sys2Proof/Machine/Flags.lean ====
section
/-! DEFINITION. `STATUS` as a 32-bit word (10_state.md R25) and the two ways a command writes it: completion (R26) and a
fault (60_exceptions.md R205). -/

namespace Sys2Proof.Machine

/-- The number of a parse error kind in `PERR` (R25). -/
def ParseError.code : ParseError → BitVec 3
  | .emptyInput => 1#3
  | .noDigitsFound => 2#3
  | .malformedSignOrExponent => 3#3
  | .scaleExceedsMaximum => 4#3

/-- `PERR`: 0 is none (R25). -/
def perrField : Option ParseError → BitVec 3
  | none => 0#3
  | some k => k.code

/-- The code of a fault cause in `FCAUSE` (R201). -/
def FaultCause.code : FaultCause → BitVec 4
  | .illegalCmd => 1#4
  | .powRange => 2#4
  | .scaleRange => 3#4
  | .textRange => 4#4
  | .zeroDivisor => 5#4
  | .divisorSign => 6#4
  | .divOverflow => 7#4
  | .uncheckedOverflow => 8#4

/-- `FCAUSE`: 0 while there is no fault (R25). -/
def fcauseField : Option FaultCause → BitVec 4
  | none => 0#4
  | some c => c.code

/-- `STATUS`, most significant field first: bits 31:13 zero, `FCAUSE`, `FAULT`, `PERR`, `OVFB`, `OVF`, `VS`, `V1`, `V0`
(R25). -/
def State.statusWord (s : State) : BitVec 32 :=
  0#19 ++ fcauseField s.status.fault ++ BitVec.ofBool s.status.fault.isSome ++ perrField s.status.perr ++
    BitVec.ofBool s.status.ovfb ++ BitVec.ofBool s.status.ovf ++ BitVec.ofBool s.rsc.isSome ++
    BitVec.ofBool s.r1.isSome ++ BitVec.ofBool s.r0.isSome

/-- The `fault` output, equal to `STATUS.FAULT` at all times (R33). -/
def State.faultOutput (s : State) : Bool := s.status.fault.isSome

/-- What a completion writes: `OVF`, `OVFB` and `PERR` whole, `FAULT` and `FCAUSE` not at all (R26). -/
def Status.complete (st : Status) (ovf ovfb : Bool) (perr : Option ParseError) : Status where
  ovf := ovf
  ovfb := ovfb
  perr := perr
  fault := st.fault

/-- What a fault writes: `STATUS[7:0]` zero, `FAULT` and `FCAUSE` (R205). -/
def Status.faulted (cause : FaultCause) : Status where
  ovf := false
  ovfb := false
  perr := none
  fault := some cause

end Sys2Proof.Machine
end

