-- ==== Sys2Proof/Machine/Operands.lean ====
section
/-! DEFINITION. How a command reads its operands (30_encoding.md R73, R74; 00_scope.md R9, R10): a register as a signed
or an unsigned number, a number written back as a bit pattern, the signed 128-bit range, and the power-of-ten table
(40_power_of_ten.md R100). -/

namespace Sys2Proof.Machine

/-! ### Number types (R9) -/

/-- `s(v)`: the pattern read as signed two's complement (R9). -/
def signedValue (v : Word) : Int := v.toInt

/-- `u(v)`: the pattern read as unsigned (R9). -/
def unsignedValue (v : Word) : Nat := v.toNat

/-- `bits_128(z)`: the pattern of `z mod 2^128` (R9). -/
def bits128 (z : Int) : Word := BitVec.ofInt 128 z

/-- The signed 128-bit range [-2^127, 2^127 - 1] (R18). -/
abbrev InI128 (z : Int) : Prop := i128Min ≤ z ∧ z ≤ i128Max

/-- `|s(v)|` as a `u128`; -2^127 gives 2^127 (R131). -/
def magnitude (v : Word) : Word := BitVec.ofNat 128 (signedValue v).natAbs

/-- The sign bit of the signed reading. -/
def isNegative (v : Word) : Bool := decide (signedValue v < 0)

/-! ### The power-of-ten table (R100) -/

/-- `TEN[0..38]`, the constant table, entry by entry as R100 lists it in hexadecimal. -/
def tenTable : List Word :=
  [0x00000000000000000000000000000001#128, 0x0000000000000000000000000000000A#128,
   0x00000000000000000000000000000064#128, 0x000000000000000000000000000003E8#128,
   0x00000000000000000000000000002710#128, 0x000000000000000000000000000186A0#128,
   0x000000000000000000000000000F4240#128, 0x00000000000000000000000000989680#128,
   0x00000000000000000000000005F5E100#128, 0x0000000000000000000000003B9ACA00#128] ++
  [0x000000000000000000000002540BE400#128, 0x0000000000000000000000174876E800#128,
   0x0000000000000000000000E8D4A51000#128, 0x0000000000000000000009184E72A000#128,
   0x000000000000000000005AF3107A4000#128, 0x000000000000000000038D7EA4C68000#128,
   0x0000000000000000002386F26FC10000#128, 0x0000000000000000016345785D8A0000#128,
   0x00000000000000000DE0B6B3A7640000#128, 0x00000000000000008AC7230489E80000#128] ++
  [0x00000000000000056BC75E2D63100000#128, 0x000000000000003635C9ADC5DEA00000#128,
   0x000000000000021E19E0C9BAB2400000#128, 0x000000000000152D02C7E14AF6800000#128,
   0x000000000000D3C21BCECCEDA1000000#128, 0x0000000000084595161401484A000000#128,
   0x000000000052B7D2DCC80CD2E4000000#128, 0x00000000033B2E3C9FD0803CE8000000#128,
   0x00000000204FCE5E3E25026110000000#128, 0x00000001431E0FAE6D7217CAA0000000#128] ++
  [0x0000000C9F2C9CD04674EDEA40000000#128, 0x0000007E37BE2022C0914B2680000000#128,
   0x000004EE2D6D415B85ACEF8100000000#128, 0x0000314DC6448D9338C15B0A00000000#128,
   0x0001ED09BEAD87C0378D8E6400000000#128, 0x0013426172C74D822B878FE800000000#128,
   0x00C097CE7BC90715B34B9F1000000000#128, 0x0785EE10D5DA46D900F436A000000000#128,
   0x4B3B4CA85A86C47A098A224000000000#128]

/-- `TEN[n]` for `n <= 38`; every command checks its index first (R106). -/
def tenEntry (n : Nat) : Word := tenTable.getD n 0#128

/-- `10^n` as an exact integer (R10). -/
def tenPower (n : Nat) : Int := ((10 ^ n : Nat) : Int)

/-- `MAX_POW` of R6. -/
def maxPow : Nat := 38

/-- `MAX_SCALE` of R6. -/
def maxScale : Nat := 18

end Sys2Proof.Machine
end

