-- ==== Sys2Proof/Machine/Ops.lean ====
section
/-! DEFINITION. The shared operations: how a command ends (00_scope.md R12; 10_state.md R23, R26), how a fault is taken
(60_exceptions.md R205), the text buffer (20_memory.md), and what a host access does (70_reset_and_hazards.md R238). -/

namespace Sys2Proof.Machine

/-! ### How a command ends -/

/-- Completion (R23, R26): the three result registers are rewritten, none being invalid, and so is `STATUS[7:0]`. -/
def complete (r0 r1 : Option Word) (rsc : Option Byte) (ovf ovfb : Bool) (perr : Option ParseError) (s : State) : State :=
  { s with r0 := r0, r1 := r1, rsc := rsc, status := s.status.complete ovf ovfb perr }

/-- `present(R0)` (R12). -/
def presentOne (v0 : Word) (s : State) : State := complete (some v0) none none false false none s

/-- `present(R0, R1)` (R12). -/
def presentTwo (v0 v1 : Word) (s : State) : State := complete (some v0) (some v1) none false false none s

/-- `present(R0, R1, RSC)` (R12, R104). -/
def presentPairAtScale (v0 v1 : Word) (scale : Byte) (s : State) : State :=
  complete (some v0) (some v1) (some scale) false false none s

/-- `present(R0, RSC)` (R185). -/
def presentParsed (v0 : Word) (scale : Byte) (s : State) : State :=
  complete (some v0) none (some scale) false false none s

/-- `absent` (R12): no result register is valid and `OVF` is set. -/
def absent (s : State) : State := complete none none none true false none s

/-- `error(kind)` (R12): no result register is valid and `PERR` holds the kind. -/
def parseFailed (k : ParseError) (s : State) : State := complete none none none false false (some k) s

/-- `raise Fault(cause)`, the fault entry of R205: the results are invalidated, `STATUS[7:0]` is zero, `FAULT` and
`FCAUSE` are written, nothing else changes. There is no return but reset (R206). -/
def raiseFault (cause : FaultCause) (s : State) : State :=
  { s with r0 := none, r1 := none, rsc := none, status := Status.faulted cause }

/-- Reset (R230, R32): every piece of the block's state. The configuration is no state (R7), and the host keeps its own
script and what it has read (log entry 11). -/
def resetBlock (s : State) : State :=
  { State.reset with config := s.config, script := s.script, hostReads := s.hostReads }

/-! ### The text buffer -/

/-- What an address that is not listed reads as: no value (R62). -/
def Memory.unlisted : Option Byte := none

/-- `TXT[i]` (R50). -/
def Memory.read : Memory → Nat → Option Byte
  | [], _ => Memory.unlisted
  | (k, b) :: rest, i => if i = k then some b else Memory.read rest i

/-- The buffer after byte `b` is written at address `i`; the addresses stay strictly rising. -/
def Memory.write : Memory → Nat → Byte → Memory
  | [], i, b => [(i, b)]
  | (k, x) :: rest, i, b =>
    if i < k then (i, b) :: (k, x) :: rest
    else if i = k then (i, b) :: rest
    else (k, x) :: Memory.write rest i b

/-- The canonical form: addresses strictly rising. No listed byte equals what an unlisted address reads as, since that is
no byte. -/
abbrev Memory.wf (m : Memory) : Prop := m.Pairwise fun x y => x.1 < y.1

/-- `TxtRead(i), …, TxtRead(i+n-1)` (R52, R180): the bytes, or the first address that holds no value (R62). -/
def readText (m : Memory) : (n i : Nat) → Except Nat (List Byte)
  | 0, _ => .ok []
  | n + 1, i =>
    match Memory.read m i with
    | none => .error i
    | some b =>
      match readText m n (i + 1) with
      | .ok t => .ok (b :: t)
      | .error j => .error j

/-! ### Host accesses (R238) -/

/-- A write to an operand register (R21). -/
def writeOperandReg (r : OperandReg) (v : Word) (s : State) : State :=
  match r with
  | .a => { s with a := v }
  | .b => { s with b := v }
  | .c => { s with c := v }

/-- A write to `TLEN` (R29): any 16-bit value can be written. -/
def writeTlenReg (n : BitVec 16) (s : State) : State := { s with tlen := n }

/-- A write of `TXT[i]` (R30); the location exists below `TEXT_MAX` only (R54). -/
def writeTextByte (i : Nat) (b : Byte) (s : State) : StepOutcome :=
  if i < s.config.textMax then .next { s with txt := Memory.write s.txt i b } else .refused (.noTextLocation i)

/-- A write to a register the host cannot write is ignored (R34, R55). -/
def writeReadOnlyReg (_r : ReadOnlyReg) (_v : Word) (s : State) : State := s

/-- What a register read returns: none for an invalid result register (R24). -/
def readHostReg (r : HostReg) (s : State) : Option Word :=
  match r with
  | .a => some s.a
  | .b => some s.b
  | .c => some s.c
  | .r0 => s.r0
  | .r1 => s.r1
  | .rsc => s.rsc.map fun v => v.setWidth 128
  | .status => some (s.statusWord.setWidth 128)
  | .tlen => some (s.tlen.setWidth 128)

/-- The host takes a value it has read (log entry 4); nothing in the block changes (R55). -/
def hostTakes (v : Word) (s : State) : State := { s with hostReads := v :: s.hostReads }

/-- A register read (R238). -/
def readRegister (r : HostReg) (s : State) : StepOutcome :=
  match readHostReg r s with
  | some v => .next (hostTakes v s)
  | none => .fault (.invalidResultRead r)

/-- A read of `TXT[i]` (R238): the location must exist (R54) and must have been written since reset (R62). -/
def readTextByte (i : Nat) (s : State) : StepOutcome :=
  if i < s.config.textMax then
    match Memory.read s.txt i with
    | some b => .next (hostTakes (b.setWidth 128) s)
    | none => .fault (.unwrittenText i)
  else .refused (.noTextLocation i)

/-! ### The host's own control (R86) -/

/-- Does a `STATUS` value that the host has read meet a test of `IFSET`? The bits are those of R25. -/
def StatusTest.holds (t : StatusTest) (v : Word) : Bool :=
  match t with
  | .v0 => v.getLsbD 0
  | .v1 => v.getLsbD 1
  | .vs => v.getLsbD 2
  | .ovf => v.getLsbD 3
  | .ovfb => v.getLsbD 4
  | .fault => v.getLsbD 8
  | .perrIs k => v.extractLsb' 5 3 == k

/-- `MOV`, second half: the value read last is written to an operand register (R86). -/
def writeLastReadValue (r : OperandReg) (s : State) : StepOutcome :=
  match s.hostReads with
  | v :: _ => .next (writeOperandReg r v s)
  | [] => .refused .noValueRead

/-- The host passes over `n` lines of its script. -/
def skipLines (n : Nat) (s : State) : State := { s with script := s.script.drop n }

/-- `IFSET`: the choice is made by the host, on the value read last (R86). -/
def skipLinesUnless (t : StatusTest) (n : Nat) (s : State) : StepOutcome :=
  match s.hostReads with
  | v :: _ => .next (if t.holds v then s else skipLines n s)
  | [] => .refused .noValueRead

end Sys2Proof.Machine
end

