-- ==== Sys2Proof/Machine/WideUnits.lean ====
section
/-! DEFINITION. The units wide_multiplier and wide_divider by their exact results (41_wide_arithmetic.md R120, R122) and
the common core of the two composites (R130). The units' internal structure is in WideStructure.lean. -/

namespace Sys2Proof.Machine

/-- `U-WMUL(a, b2) -> (hi, lo)` (R120): `hi * 2^128 + lo = a * b2`. -/
def wideMul (a b2 : Word) : Word × Word :=
  (BitVec.ofNat 128 (a.toNat * b2.toNat / 2 ^ 128), BitVec.ofNat 128 (a.toNat * b2.toNat))

/-- The value of a wide pair, `hi * 2^128 + lo`. It exists inside one command only (10_state.md R28). -/
def wideValue (hi lo : Word) : Nat := hi.toNat * 2 ^ 128 + lo.toNat

/-- What `U-WDIVREM` gives: the quotient as two words, and the remainder. -/
structure WideQuotient where
  qhi : Word
  qlo : Word
  rem : Word
deriving DecidableEq, Repr

/-- `U-WDIVREM(hi, lo, d) -> (qhi, qlo, rem)` (R122). Its domain is `d != 0`: every command checks its divisor first. -/
def wideDivRem (hi lo d : Word) : WideQuotient where
  qhi := BitVec.ofNat 128 (wideValue hi lo / d.toNat / 2 ^ 128)
  qlo := BitVec.ofNat 128 (wideValue hi lo / d.toNat)
  rem := BitVec.ofNat 128 (wideValue hi lo % d.toNat)

/-- A floor quotient and remainder, exact. -/
structure FloorPair where
  q : Int
  r : Int
deriving DecidableEq, Repr

/-- The sign and floor adjustment of R130 on the magnitude quotient `qu`, its remainder `ru` and `ay = |y|`. -/
def floorAdjust (negN negY : Bool) (qu ru ay : Int) : FloorPair :=
  if negN = negY then ⟨qu, if negY then -ru else ru⟩
  else if ru = 0 then ⟨-qu, 0⟩
  else ⟨-qu - 1, if negY then ru - ay else ay - ru⟩

/-- `WIDE_FLOOR(hi, lo, negN, y)` (R130; conflict C1): none is absent, when the magnitude quotient exceeds 2^127 - 1. -/
def wideFloor (hi lo : Word) (negN : Bool) (y : Word) : Option FloorPair :=
  let ay := magnitude y
  let d := wideDivRem hi lo ay
  if d.qhi ≠ 0#128 ∨ i128Max < (d.qlo.toNat : Int) then none
  else some (floorAdjust negN (isNegative y) d.qlo.toNat d.rem.toNat ay.toNat)

/-- `SDIVF`'s computation on `(x, p, y)` (R131): floor division of `x * 10^p` by `y`. -/
def scaledDivFloor (x : Word) (p : Nat) (y : Word) : Option FloorPair :=
  let n := wideMul (magnitude x) (tenEntry p)
  wideFloor n.1 n.2 (isNegative x) y

/-- The sign of the product of two factors, 0 when either is zero (R132). -/
def productNegative (x1 x2 : Word) : Bool :=
  (isNegative x1 != isNegative x2) && x1 != 0#128 && x2 != 0#128

/-- `DMDF`'s computation on `(x1, x2, y)` (R132): floor division of `x1 * x2` by `y`. -/
def doubleMulDivFloor (x1 x2 y : Word) : Option FloorPair :=
  let n := wideMul (magnitude x1) (magnitude x2)
  wideFloor n.1 n.2 (productNegative x1 x2) y

end Sys2Proof.Machine
end

