-- ==== Sys2Proof/Machine/FloorDivMod.lean ====
section
/-! DEFINITION. floor_div_mod_converter: `U-FDM` (42_floor_div_mod.md R150), the truncating pair fed to it (R151), and
`DIVMODF` (R152). -/

namespace Sys2Proof.Machine

/-- `U-FDM(qt, rt, y) -> (q, r)` (R150): the single correction rule. -/
def floorConvert (qt rt y : Int) : FloorPair :=
  if rt ≠ 0 ∧ rt.sign ≠ y.sign then ⟨qt - 1, rt + y⟩ else ⟨qt, rt⟩

/-- Floor quotient and remainder of `x` by `y`, through the truncating pair `qt = trunc(x / y)`, `rt = x - qt * y`
(R151, R152). -/
def floorPairOf (x y : Int) : FloorPair := floorConvert (x.tdiv y) (x - x.tdiv y * y) y

/-- The one pair whose quotient is out of range: `x = -2^127`, `y = -1` (R151, R152). -/
abbrev quotientOverflows (x y : Int) : Prop := x = i128Min ∧ y = -1

/-- `DIVMODF` (R152). -/
def execDivmodf (s : State) : StepOutcome :=
  if signedValue s.b = 0 then .next (raiseFault .zeroDivisor s)
  else if quotientOverflows (signedValue s.a) (signedValue s.b) then .next (raiseFault .divOverflow s)
  else
    let fp := floorPairOf (signedValue s.a) (signedValue s.b)
    .next (presentTwo (bits128 fp.q) (bits128 fp.r) s)

end Sys2Proof.Machine
end

