-- ==== Sys2Proof/Machine/Parser.lean ====
section
/-! DEFINITION. decimal_text_parser: the scanner (44_parser.md R182), the value (R183), the errors (R184) and `PARSE`
(R185). -/

namespace Sys2Proof.Machine

/-! ### Characters (20_memory.md R51) -/

/-- What a byte means to the scanner. -/
inductive CharClass where
  | sign (neg : Bool)
  | digit (v : Nat)
  | point
  | marker
  | other
deriving DecidableEq, Repr

/-- The class of a byte by its ASCII code (R51): digits 0x30 to 0x39, `+` 0x2B, `-` 0x2D, `.` 0x2E, `e` 0x65, `E` 0x45. -/
def classOf (b : Byte) : CharClass :=
  if 0x30 ≤ b.toNat ∧ b.toNat ≤ 0x39 then .digit (b.toNat - 0x30)
  else if b.toNat = 0x2B then .sign false
  else if b.toNat = 0x2D then .sign true
  else if b.toNat = 0x2E then .point
  else if b.toNat = 0x65 ∨ b.toNat = 0x45 then .marker
  else .other

/-! ### The scanner (R182) -/

/-- The states of R182. -/
inductive ScanPoint where
  | s0
  | s1
  | s2
  | s3
  | s4
  | s5
  | s6
  | s7
deriving DecidableEq, Repr

/-- What the scanner keeps (R182): its state, the sign, the coefficient magnitude `M`, the count `f` of fractional
digits, the exponent's sign and magnitude `E`. -/
structure Scan where
  at_ : ScanPoint
  neg : Bool
  mag : Nat
  frac : Nat
  expNeg : Bool
  exp : Nat
deriving DecidableEq, Repr

/-- Before the first byte. -/
def Scan.start : Scan where
  at_ := .s0
  neg := false
  mag := 0
  frac := 0
  expNeg := false
  exp := 0

/-- "Take digit" (R182). -/
def Scan.takeDigit (sc : Scan) (dest : ScanPoint) (v : Nat) : Scan := { sc with at_ := dest, mag := sc.mag * 10 + v }

/-- "Take digit as fractional" (R182). -/
def Scan.takeFraction (sc : Scan) (v : Nat) : Scan :=
  { sc with at_ := .s4, mag := sc.mag * 10 + v, frac := sc.frac + 1 }

/-- "Take exponent digit" (R182). -/
def Scan.takeExponent (sc : Scan) (v : Nat) : Scan := { sc with at_ := .s7, exp := sc.exp * 10 + v }

/-- One move of the table of R182; none is a lexical defect. -/
def Scan.move (sc : Scan) (c : CharClass) : Option Scan :=
  match sc.at_, c with
  | .s0, .sign n => some { sc with at_ := .s1, neg := n }
  | .s0, .digit v => some (sc.takeDigit .s2 v)
  | .s0, .point => some { sc with at_ := .s3 }
  | .s1, .digit v => some (sc.takeDigit .s2 v)
  | .s1, .point => some { sc with at_ := .s3 }
  | .s2, .digit v => some (sc.takeDigit .s2 v)
  | .s2, .point => some { sc with at_ := .s4 }
  | .s2, .marker => some { sc with at_ := .s5 }
  | .s3, .digit v => some (sc.takeFraction v)
  | .s4, .digit v => some (sc.takeFraction v)
  | .s4, .marker => some { sc with at_ := .s5 }
  | .s5, .sign n => some { sc with at_ := .s6, expNeg := n }
  | .s5, .digit v => some (sc.takeExponent v)
  | .s6, .digit v => some (sc.takeExponent v)
  | .s7, .digit v => some (sc.takeExponent v)
  | _, _ => none

/-- The single left-to-right pass (R182). -/
def Scan.run (sc : Scan) : List Byte → Option Scan
  | [] => some sc
  | b :: rest =>
    match sc.move (classOf b) with
    | some sc' => sc'.run rest
    | none => none

/-! ### Value and errors (R183, R184) -/

/-- What a text is: a decimal, or an error of one kind (R184). -/
inductive Parsed where
  | success (coefficient : Int) (scale : Nat)
  | error (k : ParseError)
deriving DecidableEq, Repr

/-- `k = e - f` of R183. -/
def shiftOf (expNeg : Bool) (exp frac : Nat) : Int := (if expNeg then -(exp : Int) else (exp : Int)) - (frac : Int)

/-- `M * 10^k` for `k > 0`, none where it cannot be a coefficient: `M = 0` gives 0 for every `k`, and any other `M`
overflows for `k > 38` (R183, R186 (c); log entry 17). -/
def scaledMagnitude (mag k : Nat) : Option Nat :=
  if mag = 0 then some 0 else if maxPow < k then none else some (mag * 10 ^ k)

/-- The coefficient with its sign (R183). -/
def withSign (neg : Bool) (m : Nat) : Int := if neg then -(m : Int) else (m : Int)

/-- The success condition of R183; a failure is a capacity failure, kind 4 (R184). -/
def checkCapacity (coefficient : Int) (scale : Nat) : Parsed :=
  if scale ≤ maxScale ∧ InI128 coefficient then .success coefficient scale else .error .scaleExceedsMaximum

/-- The value of an accepted text (R183). -/
def valueOf (neg : Bool) (mag : Nat) (k : Int) : Parsed :=
  if k ≤ 0 then checkCapacity (withSign neg mag) (-k).toNat
  else
    match scaledMagnitude mag k.toNat with
    | some m => checkCapacity (withSign neg m) 0
    | none => .error .scaleExceedsMaximum

/-- The end of the text (R182, R184). -/
def Scan.finish (sc : Scan) : Parsed :=
  match sc.at_ with
  | .s0 => .error .emptyInput
  | .s1 => .error .noDigitsFound
  | .s2 => valueOf sc.neg sc.mag (shiftOf sc.expNeg sc.exp sc.frac)
  | .s3 => .error .noDigitsFound
  | .s4 => valueOf sc.neg sc.mag (shiftOf sc.expNeg sc.exp sc.frac)
  | .s5 => .error .malformedSignOrExponent
  | .s6 => .error .malformedSignOrExponent
  | .s7 => valueOf sc.neg sc.mag (shiftOf sc.expNeg sc.exp sc.frac)

/-- Classification of a text, total on all byte strings (R184). -/
def parseText (t : List Byte) : Parsed :=
  match Scan.start.run t with
  | some sc => sc.finish
  | none => .error .malformedSignOrExponent

/-! ### PARSE (R185) -/

/-- The result of `PARSE` for a classified text (R185). -/
def deliverParsed (p : Parsed) (s : State) : State :=
  match p with
  | .success coefficient scale => presentParsed (bits128 coefficient) (BitVec.ofNat 8 scale) s
  | .error k => parseFailed k s

/-- `PARSE` (R185). A byte below `TLEN` never written since reset gives the command no meaning (R62). -/
def execParse (s : State) : StepOutcome :=
  if s.config.textMax < s.tlen.toNat then .next (raiseFault .textRange s)
  else
    match readText s.txt s.tlen.toNat 0 with
    | .ok t => .next (deliverParsed (parseText t) s)
    | .error i => .fault (.unwrittenText i)

end Sys2Proof.Machine
end

