-- ==== Sys2Proof/Machine/PowerOfTen.lean ====
section
/-! DEFINITION. power_of_ten_scaler: `TENPOW`, `MULP10`, `CMULP10`, `ADJ`, `CADJ` (40_power_of_ten.md). -/

namespace Sys2Proof.Machine

/-- A coefficient times `10^n`, exact (R102, R103). -/
def scaledBy (x : Word) (n : Nat) : Int := signedValue x * tenPower n

/-- First coefficient at the shared scale (R104): multiplied when its scale is the smaller one. -/
def adjustedFirst (c1 : Word) (s1 s2 : Nat) : Int := if s1 < s2 then scaledBy c1 (s2 - s1) else signedValue c1

/-- Second coefficient at the shared scale (R104). -/
def adjustedSecond (c2 : Word) (s1 s2 : Nat) : Int := if s2 < s1 then scaledBy c2 (s1 - s2) else signedValue c2

/-- The shared scale, `max(s1, s2)` (R104). -/
def sharedScale (s1 s2 : Nat) : Byte := BitVec.ofNat 8 (max s1 s2)

/-- One side of `CADJ`: the coefficient, or none when it overflowed (R105). -/
def checkedSide (z : Int) : Option Word := if InI128 z then some (bits128 z) else none

/-- `TENPOW n` (R101). -/
def execTenpow (n : Nat) (s : State) : StepOutcome :=
  if maxPow < n then .next (raiseFault .powRange s)
  else .next (presentOne (tenEntry n) s)

/-- `MULP10 n` (R102): the unchecked product faults when it is out of range. -/
def execMulp10 (n : Nat) (s : State) : StepOutcome :=
  if maxPow < n then .next (raiseFault .powRange s)
  else if InI128 (scaledBy s.a n) then .next (presentOne (bits128 (scaledBy s.a n)) s)
  else .next (raiseFault .uncheckedOverflow s)

/-- `CMULP10 n` (R103): the checked product is absent when it is out of range. -/
def execCmulp10 (n : Nat) (s : State) : StepOutcome :=
  if maxPow < n then .next (raiseFault .powRange s)
  else if InI128 (scaledBy s.a n) then .next (presentOne (bits128 (scaledBy s.a n)) s)
  else .next (absent s)

/-- `ADJ s1, s2` (R104). -/
def execAdj (s1 s2 : Nat) (s : State) : StepOutcome :=
  if maxScale < s1 ∨ maxScale < s2 then .next (raiseFault .scaleRange s)
  else if InI128 (adjustedFirst s.a s1 s2) ∧ InI128 (adjustedSecond s.b s1 s2) then
    .next (presentPairAtScale (bits128 (adjustedFirst s.a s1 s2)) (bits128 (adjustedSecond s.b s1 s2))
      (sharedScale s1 s2) s)
  else .next (raiseFault .uncheckedOverflow s)

/-- `CADJ s1, s2` (R105): each side is reported on its own; the scale is always delivered. -/
def execCadj (s1 s2 : Nat) (s : State) : StepOutcome :=
  if maxScale < s1 ∨ maxScale < s2 then .next (raiseFault .scaleRange s)
  else
    .next (complete (checkedSide (adjustedFirst s.a s1 s2)) (checkedSide (adjustedSecond s.b s1 s2))
      (some (sharedScale s1 s2)) (checkedSide (adjustedFirst s.a s1 s2)).isNone
      (checkedSide (adjustedSecond s.b s1 s2)).isNone none s)

end Sys2Proof.Machine
end

