-- ==== Sys2Proof/Machine/Rounding.lean ====
section
/-! DEFINITION. rounding_engine: `U-ROUND` (43_rounding_engine.md R160 to R162), and `DIVR`, `SDIVR`, `MDTPR` (R163 to
R166). -/

namespace Sys2Proof.Machine

/-- `inc` at `2|r| < |y|`, `2|r| > |y|` and at a tie, for a half mode (R162; conflict C2). -/
def nearest (r y atTie : Int) : Int :=
  if 2 * r.natAbs < y.natAbs then 0
  else if y.natAbs < 2 * r.natAbs then 1
  else atTie

/-- `q[0]`: 1 when `q` is odd (R162). -/
def lowBit (q : Int) : Int := q % 2

/-- `U-ROUND(mode, q, r, y) -> inc` (R160 to R162): what is added to the floor quotient. `q < 0` stands for the sign of
the true quotient (R160). -/
def roundIncrement (mode : RoundingMode) (q r y : Int) : Int :=
  if r = 0 then 0
  else
    match mode with
    | .floor => 0
    | .ceiling => 1
    | .up => if q < 0 then 0 else 1
    | .down => if q < 0 then 1 else 0
    | .halfUp => nearest r y (if q < 0 then 0 else 1)
    | .halfDown => nearest r y (if q < 0 then 1 else 0)
    | .halfEven => nearest r y (lowBit q)
    | .halfCeiling => nearest r y 1
    | .halfFloor => nearest r y 0

/-- The rounded value of a floor pair (R160). -/
def rounded (mode : RoundingMode) (fp : FloorPair) (y : Int) : Int := fp.q + roundIncrement mode fp.q fp.r y

/-- `SDIVR` and `MDTPR` from a floor pair: absent when the floor stage is absent, or when rounding up leaves 2^127 - 1
(R164, R165, R166). -/
def deliverRounded (mode : RoundingMode) (p : Option FloorPair) (y : Int) (s : State) : State :=
  match p with
  | none => absent s
  | some fp =>
    if fp.q = i128Max ∧ roundIncrement mode fp.q fp.r y = 1 then absent s
    else presentOne (bits128 (rounded mode fp y)) s

/-- `DIVR mode` (R163). -/
def execDivr (mode : RoundingMode) (s : State) : StepOutcome :=
  if signedValue s.b = 0 then .next (raiseFault .zeroDivisor s)
  else if quotientOverflows (signedValue s.a) (signedValue s.b) then .next (raiseFault .divOverflow s)
  else
    .next (presentOne (bits128 (rounded mode (floorPairOf (signedValue s.a) (signedValue s.b)) (signedValue s.b))) s)

/-- `SDIVR p, mode` (R164). -/
def execSdivr (p : Nat) (mode : RoundingMode) (s : State) : StepOutcome :=
  if maxPow < p then .next (raiseFault .powRange s)
  else if signedValue s.b = 0 then .next (raiseFault .zeroDivisor s)
  else .next (deliverRounded mode (scaledDivFloor s.a p s.b) (signedValue s.b) s)

/-- `MDTPR p, mode` (R165): the divisor is `TEN[p]`; `C` is not read. -/
def execMdtpr (p : Nat) (mode : RoundingMode) (s : State) : StepOutcome :=
  if maxPow < p then .next (raiseFault .powRange s)
  else .next (deliverRounded mode (doubleMulDivFloor s.a s.b (tenEntry p)) (signedValue (tenEntry p)) s)

end Sys2Proof.Machine
end

