-- ==== Sys2Proof/Machine/WideArithmetic.lean ====
section
/-! DEFINITION. The wide composites `SDIVF` and `DMDF` (41_wide_arithmetic.md R131, R132). -/

namespace Sys2Proof.Machine

/-- A command whose outcome is a floor pair: both results, or absent (R131, R132). -/
def deliverPair (p : Option FloorPair) (s : State) : State :=
  match p with
  | some fp => presentTwo (bits128 fp.q) (bits128 fp.r) s
  | none => absent s

/-- `SDIVF p` (R131). -/
def execSdivf (p : Nat) (s : State) : StepOutcome :=
  if maxPow < p then .next (raiseFault .powRange s)
  else if signedValue s.b = 0 then .next (raiseFault .zeroDivisor s)
  else .next (deliverPair (scaledDivFloor s.a p s.b) s)

/-- `DMDF` (R132). -/
def execDmdf (s : State) : StepOutcome :=
  if signedValue s.c = 0 then .next (raiseFault .zeroDivisor s)
  else if signedValue s.c < 0 then .next (raiseFault .divisorSign s)
  else .next (deliverPair (doubleMulDivFloor s.a s.b s.c) s)

end Sys2Proof.Machine
end

