-- ==== Sys2Proof/Machine/Dispatch.lean ====
section
/-! DEFINITION. One arm per command (30_encoding.md R75). -/

namespace Sys2Proof.Machine

-- The meaning of each command, by its constructor.
def exec (i : Instr) (s : State) : Host.Outcome State Fault Refusal :=
  match i with
  | .tenpow n => Sys2Proof.Machine.execTenpow n s
  | .mulp10 n => Sys2Proof.Machine.execMulp10 n s
  | .cmulp10 n => Sys2Proof.Machine.execCmulp10 n s
  | .adj s1 s2 => Sys2Proof.Machine.execAdj s1 s2 s
  | .cadj s1 s2 => Sys2Proof.Machine.execCadj s1 s2 s
  | .sdivf p => Sys2Proof.Machine.execSdivf p s
  | .dmdf => Sys2Proof.Machine.execDmdf s
  | .divmodf => Sys2Proof.Machine.execDivmodf s
  | .divr mode => Sys2Proof.Machine.execDivr mode s
  | .sdivr p mode => Sys2Proof.Machine.execSdivr p mode s
  | .mdtpr p mode => Sys2Proof.Machine.execMdtpr p mode s
  | .parse => Sys2Proof.Machine.execParse s

end Sys2Proof.Machine
end

