-- ==== Sys2Proof/Machine/HostPort.lean ====
section
/-! DEFINITION. The command port (30_encoding.md R70) and the host actions (70_reset_and_hazards.md R238). -/

namespace Sys2Proof.Machine

/-- The atomic step of a command issue (R70): while `STATUS.FAULT` is 1 nothing at all happens (60_exceptions.md R207);
otherwise the word is decoded (R80), an illegal word faults (R77), and a command is executed. -/
def issueCommand (w : CmdWord) (s : State) : StepOutcome :=
  if s.status.fault.isSome then .next s
  else
    match decode w with
    | .illegal _ => .next (raiseFault .illegalCmd s)
    | .command i => exec i s

/-- What one host action does (R238, R86). -/
def perform (act : HostAction) (s : State) : StepOutcome :=
  match act with
  | .writeOperand r v => .next (writeOperandReg r v s)
  | .writeTlen n => .next (writeTlenReg n s)
  | .writeText i b => writeTextByte i b s
  | .writeReadOnly r v => .next (writeReadOnlyReg r v s)
  | .readReg r => readRegister r s
  | .readText i => readTextByte i s
  | .issue w => issueCommand w s
  | .reset => .next (resetBlock s)
  | .writeLastRead r => writeLastReadValue r s
  | .skipUnless t n => skipLinesUnless t n s
  | .skip n => .next (skipLines n s)

/-- The next host action in the total order (20_memory.md R58): it is taken from the script and performed. With no action
left the block waits (R230) and nothing changes. -/
def hostStep (s : State) : StepOutcome :=
  match s.script with
  | [] => .next s
  | act :: rest => perform act { s with script := rest }

/-- The state whose next host action is `act`. -/
def beforeAction (act : HostAction) (s : State) : State := { s with script := act :: s.script }

/-- The command word that the table's numbering gives (R8): bit 0 is bit 0. -/
def tableCommandWord (nbits w : Nat) : CmdWord := BitVec.ofNat 32 (w % 2 ^ nbits)

/-! ### Pseudo-instructions of host scripts (R86), as the lines they expand to -/

/-- The lines of `TEXT "s"` from index `i`: one `WB` a byte. -/
def textLines : (i : Nat) → List Byte → List HostAction
  | _, [] => []
  | i, b :: rest => .writeText i b :: textLines (i + 1) rest

/-- `TEXT "s"`: the bytes, then `WR TLEN, len(s)`. DESIGN CHOICE (log entry 22): for a text of more than 65535 bytes the
length written is taken mod 2^16. -/
def scriptText (t : List Byte) : List HostAction := textLines 0 t ++ [.writeTlen (BitVec.ofNat 16 t.length)]

/-- `MOV r, src`: `RD src`, then `WR r, value read`. -/
def scriptMov (r : OperandReg) (src : HostReg) : List HostAction := [.readReg src, .writeLastRead r]

/-- `IFSET test … ELSE … END`: the host reads `STATUS`, tests, and performs one of the two groups. -/
def scriptIfSet (t : StatusTest) (thenLines elseLines : List HostAction) : List HostAction :=
  [.readReg .status, .skipUnless t (thenLines.length + 1)] ++ thenLines ++ [.skip elseLines.length] ++ elseLines

/-- A mnemonic line (R85): the host issues the command's word. DESIGN CHOICE (log entry 21): for a line whose number is
above 255, such as `TENPOW 256`, the word has the low 8 bits of the number. -/
def scriptCommand (i : Instr) : HostAction := .issue (encode i)

/-- `WR r, v` with `v` a signed number (R85). DESIGN CHOICE (log entry 22): for `v` outside [-2^127, 2^127 - 1] the value
written is the pattern of `v` mod 2^128. -/
def scriptWriteSigned (r : OperandReg) (v : Int) : HostAction := .writeOperand r (bits128 v)

end Sys2Proof.Machine
end

