-- ==== Sys2Proof/Machine/Step.lean ====
section
/-! DEFINITION. One step of the machine: one host action of the total order (20_memory.md R58), a command issue being one
of them and one step (R57, 70_reset_and_hazards.md R242). -/

namespace Sys2Proof.Machine

/-- One step. -/
def step (s : State) : Host.Outcome State Fault Refusal := hostStep s

/-- The state whose very next step is the issue of this command word: there is no program counter and no stored program
(10_state.md R27), so the word is put in front of the host's script (log entry 3). -/
def State.withFetchWord (s : State) (nbits w : Nat) : State := beforeAction (.issue (tableCommandWord nbits w)) s

end Sys2Proof.Machine
end

