-- ==== Sys2Proof/Machine/BoundedParser.lean ====
section
/-! DEFINITION. The scanner with registers of the widths that suffice (44_parser.md R186): `M` in 128 bits with a sticky
flag "magnitude above 2^127", `f` in a counter of the width of `TLEN`, `E` saturating at 2^17. A statement of
Certificates/Slice0 says that it classifies every text a `TLEN` can name as `parseText` does. -/

namespace Sys2Proof.Machine

/-- What the bounded scanner keeps (R186). -/
structure BoundedScan where
  at_ : ScanPoint
  neg : Bool
  mag : Word
  above : Bool
  frac : BitVec 16
  expNeg : Bool
  exp : BitVec 18
deriving DecidableEq, Repr

/-- Before the first byte. -/
def BoundedScan.start : BoundedScan where
  at_ := .s0
  neg := false
  mag := 0#128
  above := false
  frac := 0#16
  expNeg := false
  exp := 0#18

/-- The magnitude 2^127. -/
def magnitudeLimit : Nat := 170141183460469231731687303715884105728

/-- `2^17`, where `E` saturates (R186 (c)). -/
def exponentLimit : Nat := 131072

/-- A mantissa digit: the flag is sticky, and the register is left as it is once the flag is set (R186 (a)). -/
def BoundedScan.takeMantissa (sc : BoundedScan) (v : Nat) : BoundedScan :=
  if sc.above ∨ magnitudeLimit < sc.mag.toNat * 10 + v then { sc with above := true }
  else { sc with mag := BitVec.ofNat 128 (sc.mag.toNat * 10 + v) }

/-- An exponent digit, saturating (R186 (c)). -/
def BoundedScan.takeExponent (sc : BoundedScan) (v : Nat) : BoundedScan :=
  { sc with exp := BitVec.ofNat 18 (min (sc.exp.toNat * 10 + v) exponentLimit) }

/-- One move of the table of R182 on the bounded registers. -/
def BoundedScan.move (sc : BoundedScan) (c : CharClass) : Option BoundedScan :=
  match sc.at_, c with
  | .s0, .sign n => some { sc with at_ := .s1, neg := n }
  | .s0, .digit v => some { sc.takeMantissa v with at_ := .s2 }
  | .s0, .point => some { sc with at_ := .s3 }
  | .s1, .digit v => some { sc.takeMantissa v with at_ := .s2 }
  | .s1, .point => some { sc with at_ := .s3 }
  | .s2, .digit v => some { sc.takeMantissa v with at_ := .s2 }
  | .s2, .point => some { sc with at_ := .s4 }
  | .s2, .marker => some { sc with at_ := .s5 }
  | .s3, .digit v => some { sc.takeMantissa v with at_ := .s4, frac := sc.frac + 1#16 }
  | .s4, .digit v => some { sc.takeMantissa v with at_ := .s4, frac := sc.frac + 1#16 }
  | .s4, .marker => some { sc with at_ := .s5 }
  | .s5, .sign n => some { sc with at_ := .s6, expNeg := n }
  | .s5, .digit v => some { sc.takeExponent v with at_ := .s7 }
  | .s6, .digit v => some { sc.takeExponent v with at_ := .s7 }
  | .s7, .digit v => some { sc.takeExponent v with at_ := .s7 }
  | _, _ => none

/-- The single pass on the bounded registers. -/
def BoundedScan.run (sc : BoundedScan) : List Byte → Option BoundedScan
  | [] => some sc
  | b :: rest =>
    match sc.move (classOf b) with
    | some sc' => sc'.run rest
    | none => none

/-- The value from the bounded registers: no success once the magnitude is above 2^127 (R186 (a)); the multiplication
by `10^k` as in `valueOf` (R186 (d)). -/
def BoundedScan.value (sc : BoundedScan) : Parsed :=
  if sc.above then .error .scaleExceedsMaximum
  else valueOf sc.neg sc.mag.toNat (shiftOf sc.expNeg sc.exp.toNat sc.frac.toNat)

/-- The end of the text (R182, R184). -/
def BoundedScan.finish (sc : BoundedScan) : Parsed :=
  match sc.at_ with
  | .s0 => .error .emptyInput
  | .s1 => .error .noDigitsFound
  | .s2 => sc.value
  | .s3 => .error .noDigitsFound
  | .s4 => sc.value
  | .s5 => .error .malformedSignOrExponent
  | .s6 => .error .malformedSignOrExponent
  | .s7 => sc.value

/-- Classification of a text on the bounded registers. -/
def boundedParseText (t : List Byte) : Parsed :=
  match BoundedScan.start.run t with
  | some sc => sc.finish
  | none => .error .malformedSignOrExponent

end Sys2Proof.Machine
end

