-- ==== Sys2Proof/Machine/Grammar.lean ====
section
/-! DEFINITION. The grammar of decimal texts as syntax trees (44_parser.md R181), their spelling as bytes (20_memory.md
R51), and their value in the integers (R183); and the formatter shape of R187. Statements of Certificates/Slice0 say
that the scanner accepts exactly the spellings and gives exactly these values. -/

namespace Sys2Proof.Machine

/-- A decimal digit `D`. -/
abbrev Digit := Fin 10

/-- The code of a digit (R51). -/
def digitByte (d : Digit) : Byte := BitVec.ofNat 8 (0x30 + d.val)

/-- A sign: true is `-`. -/
def signByte (neg : Bool) : Byte := if neg then 0x2D#8 else 0x2B#8

/-- The code of `.` (R51). -/
def pointByte : Byte := 0x2E#8

/-- The exponent marker: true is `E`. -/
def markerByte (upper : Bool) : Byte := if upper then 0x45#8 else 0x65#8

/-- The mantissa of R181: `D+ [ "." D* ]` or `"." D+`. -/
inductive Mantissa where
  /-- `D+`: first digit, then the others -/
  | whole (d : Digit) (ds : List Digit)
  /-- `D+ "." D*` -/
  | pointed (d : Digit) (ds : List Digit) (frac : List Digit)
  /-- `"." D+` -/
  | fraction (d : Digit) (ds : List Digit)
deriving DecidableEq, Repr

/-- The exponent of R181: a marker, an optional sign, `D+`. -/
structure ExponentPart where
  upper : Bool
  sign : Option Bool
  first : Digit
  others : List Digit
deriving DecidableEq, Repr

/-- A text of the grammar of R181. -/
structure Numeral where
  sign : Option Bool
  mantissa : Mantissa
  exponent : Option ExponentPart
deriving DecidableEq, Repr

/-- The spelling of an optional sign. -/
def spellSign : Option Bool → List Byte
  | none => []
  | some neg => [signByte neg]

/-- The spelling of a mantissa. -/
def Mantissa.spell : Mantissa → List Byte
  | .whole d ds => (d :: ds).map digitByte
  | .pointed d ds frac => (d :: ds).map digitByte ++ pointByte :: frac.map digitByte
  | .fraction d ds => pointByte :: (d :: ds).map digitByte

/-- The spelling of an exponent part. -/
def ExponentPart.spell (e : ExponentPart) : List Byte :=
  markerByte e.upper :: (spellSign e.sign ++ (e.first :: e.others).map digitByte)

/-- The bytes of a text of the grammar (R181). -/
def Numeral.spell (n : Numeral) : List Byte :=
  spellSign n.sign ++ (n.mantissa.spell ++ (n.exponent.map ExponentPart.spell).getD [])

/-- A digit run read as one decimal integer. -/
def digitsValue (ds : List Digit) : Nat := ds.foldl (fun v d => v * 10 + d.val) 0

/-- The fractional digit run. -/
def Mantissa.fracDigits : Mantissa → List Digit
  | .whole _ _ => []
  | .pointed _ _ frac => frac
  | .fraction d ds => d :: ds

/-- All mantissa digits, the integer run followed by the fractional run. -/
def Mantissa.digits : Mantissa → List Digit
  | .whole d ds => d :: ds
  | .pointed d ds frac => d :: ds ++ frac
  | .fraction d ds => d :: ds

/-- `e` of R183: the exponent, 0 if there is none. -/
def Numeral.exponentValue (n : Numeral) : Int :=
  match n.exponent with
  | none => 0
  | some e =>
    if e.sign = some true then -(digitsValue (e.first :: e.others) : Int) else (digitsValue (e.first :: e.others) : Int)

/-- `k = e - f` of R183. -/
def Numeral.shift (n : Numeral) : Int := n.exponentValue - (n.mantissa.fracDigits.length : Int)

/-- The scale of R183. -/
def Numeral.scale (n : Numeral) : Nat := if n.shift ≤ 0 then (-n.shift).toNat else 0

/-- `m` of R183, exact: `M`, or `M * 10^k` for `k > 0`. -/
def Numeral.mag (n : Numeral) : Nat :=
  if n.shift ≤ 0 then digitsValue n.mantissa.digits else digitsValue n.mantissa.digits * 10 ^ n.shift.toNat

/-- The coefficient of R183, exact. -/
def Numeral.coefficient (n : Numeral) : Int := if n.sign = some true then -(n.mag : Int) else (n.mag : Int)

/-! ### The formatter shape of R187 (a test aid of the spec, no part of the block) -/

/-- The last `n` decimal digits of `v`, most significant first, left-padded with zeros. -/
def decimalDigits : (n v : Nat) → List Digit
  | 0, _ => []
  | n + 1, v => decimalDigits n (v / 10) ++ [⟨v % 10, Nat.mod_lt v (by decide)⟩]

/-- The number of decimal digits of `v`, at least 1, found within `fuel` steps. -/
def digitCount : (fuel v : Nat) → Nat
  | 0, _ => 1
  | fuel + 1, v => if v < 10 then 1 else digitCount fuel (v / 10) + 1

/-- The digits of `|c|` left-padded to at least `scale + 1` (R187). The magnitude of an `i128` has at most 39. -/
def paddedDigits (c : Int) (scale : Nat) : List Digit :=
  decimalDigits (max (digitCount 38 c.natAbs) (scale + 1)) c.natAbs

/-- `formatDecimal c scale` (R187): `-` if negative, the padded digits, a `.` before the last `scale` digits when
`scale > 0`. -/
def formatDecimal (c : Int) (scale : Nat) : List Byte :=
  (if c < 0 then [signByte true] else []) ++
    (if scale = 0 then (paddedDigits c scale).map digitByte
     else ((paddedDigits c scale).take ((paddedDigits c scale).length - scale)).map digitByte ++
       pointByte :: ((paddedDigits c scale).drop ((paddedDigits c scale).length - scale)).map digitByte)

end Sys2Proof.Machine
end

