-- ==== Sys2Proof/Machine/WideStructure.lean ====
section
/-! DEFINITION. The internal structure of wide_multiplier and wide_divider, on 128-bit registers as the spec writes it:
the four-limb multiply (41_wide_arithmetic.md R121), the three-tier dispatch (R123), and the tiers (R124, R125, R126).
Nothing at the interface can tell it from the exact units (R120, R122), which the commands use; statements of
Certificates/Slice0 say that the two agree (log entry 15). -/

namespace Sys2Proof.Machine

/-- `v[63:0]` in a 128-bit register. -/
def lowHalf (v : Word) : Word := (v.extractLsb' 0 64).setWidth 128

/-- `v[127:64]` in a 128-bit register. -/
def highHalf (v : Word) : Word := (v.extractLsb' 64 64).setWidth 128

/-- `{h, l}` of two 64-bit digits (R8): the low halves of two registers. -/
def joinHalves (h l : Word) : Word := h.extractLsb' 0 64 ++ l.extractLsb' 0 64

/-! ### The multiplier (R121) -/

/-- `t` of R121. -/
def limbMulT (a b2 : Word) : Word :=
  lowHalf a * highHalf b2 + (lowHalf a * lowHalf b2) >>> 64

/-- `w` of R121. -/
def limbMulW (a b2 : Word) : Word := lowHalf (limbMulT a b2) + highHalf a * lowHalf b2

/-- The four-limb arrangement of R121, every sum in 128 bits. -/
def limbMul (a b2 : Word) : Word × Word :=
  (highHalf a * highHalf b2 + limbMulT a b2 >>> 64 + limbMulW a b2 >>> 64,
   joinHalves (limbMulW a b2) (lowHalf a * lowHalf b2))

/-! ### Tier 1 (R124) -/

/-- `cur = r * 2^64 + u` of R124. -/
def shiftIn (r u : Word) : Word := r <<< 64 + u

/-- Tier 1: word by word by a divisor below 2^64. -/
def divTier1 (hi lo d : Word) : WideQuotient :=
  let c3 := shiftIn 0#128 (highHalf hi)
  let c2 := shiftIn (c3 % d) (lowHalf hi)
  let c1 := shiftIn (c2 % d) (highHalf lo)
  let c0 := shiftIn (c1 % d) (lowHalf lo)
  { qhi := joinHalves (c3 / d) (c2 / d)
    qlo := joinHalves (c1 / d) (c0 / d)
    rem := c0 % d }

/-! ### Tier 2 (R125) -/

/-- `b = 2^64`, as a 128-bit value. -/
def base64 : Word := 0x00000000000000010000000000000000#128

/-- `clz128(v)` for a non-zero `v` (R10). -/
def clz128 (v : Word) : Nat := 127 - v.toNat.log2

/-- The correction loop of `digit` (R125): the estimate is lowered while the cross-multiplication test holds and `rhat`
is below 2^64. The first argument bounds the number of corrections (log entry 16). -/
def correctDigit (vn1 vn0 nxt : Word) : Nat → Word → Word → Word
  | 0, q, _ => q
  | k + 1, q, rhat =>
    if base64 ≤ q ∨ shiftIn rhat nxt < q * vn0 then
      if rhat + vn1 < base64 then correctDigit vn1 vn0 nxt k (q - 1#128) (rhat + vn1) else q - 1#128
    else q

/-- More corrections than the loop of R125 ever makes: it makes at most two. -/
def correctionBound : Nat := 4

/-- `digit(u, nxt)` of R125, by the normalized divisor `v`. -/
def quotientDigit (v u nxt : Word) : Word :=
  correctDigit (highHalf v) (lowHalf v) nxt correctionBound (u / highHalf v) (u % highHalf v)

/-- The remainder after one digit, `u * 2^64 + nxt - q * v` kept in 128 bits (R125). -/
def digitRemainder (v u nxt q : Word) : Word := shiftIn u nxt - q * v

/-- The normalized high dividend word, `un32` of R125. -/
def normalizedHigh (hi lo : Word) (s : Nat) : Word := if s = 0 then hi else hi <<< s ||| lo >>> (128 - s)

/-- Tier 2: a divisor of at least 2^64 and a high dividend word below it. -/
def divTier2 (hi lo d : Word) : WideQuotient :=
  let s := clz128 d
  let v := d <<< s
  let un32 := normalizedHigh hi lo s
  let un10 := lo <<< s
  let q1 := quotientDigit v un32 (highHalf un10)
  let un21 := digitRemainder v un32 (highHalf un10) q1
  let q0 := quotientDigit v un21 (lowHalf un10)
  let rn := digitRemainder v un21 (lowHalf un10) q0
  { qhi := 0#128, qlo := joinHalves q1 q0, rem := rn >>> s }

/-! ### Tier 3 (R126) and the dispatch (R123) -/

/-- Tier 3: the high dividend word is reduced modulo the divisor first. -/
def divTier3 (hi lo d : Word) : WideQuotient :=
  { divTier2 (hi % d) lo d with qhi := hi / d }

/-- The three-tier dispatch by divisor magnitude (R123). -/
def tieredDivRem (hi lo d : Word) : WideQuotient :=
  if d < base64 then divTier1 hi lo d
  else if hi < d then divTier2 hi lo d
  else divTier3 hi lo d

end Sys2Proof.Machine
end

