-- ==== Sys2Proof/Safety.lean ====
section
/-! DEFINITION. What a good state and a safe run are (60_exceptions.md R206, R207), and the invariant of the machine: what
the spec says of every state the block can be in (10_state.md R25, R26; 00_scope.md R19; 20_memory.md R50). -/

namespace Sys2Proof.Machine

/-! ### Safe runs -/

/-- A state that has not gone wrong: no fault has been taken since reset. A faulted state is never a good final state
(R207). -/
def State.good (s : State) : Bool := s.status.fault.isNone

/-- `k` steps that never stop and never pass through a faulted state (R207). -/
def safeRun : (k : Nat) → State → Bool
  | 0, s => s.good
  | k + 1, s =>
    s.good &&
      match step s with
      | .next s' => safeRun k s'
      | .fault _ => false
      | .refused _ => false

/-! ### The invariant -/

/-- The `STATUS` words of the table of R26, with 0 for the time between reset and the first command (R32): as
95_test_vectors.md lists them. -/
def legalStatusWords : List (BitVec 32) :=
  [0x000#32, 0x001#32, 0x003#32, 0x007#32, 0x00E#32, 0x015#32, 0x008#32, 0x005#32] ++
  [0x020#32, 0x040#32, 0x060#32, 0x080#32] ++
  [0x300#32, 0x500#32, 0x700#32, 0x900#32, 0xB00#32, 0xD00#32, 0xF00#32, 0x1100#32]

/-- The text buffer is in canonical form and lists locations that exist (20_memory.md R50). -/
abbrev State.textWf (s : State) : Prop := Memory.wf s.txt ∧ ∀ c ∈ s.txt, c.1 < s.config.textMax

/-- A scale the block holds never exceeds 18 (R19). -/
abbrev State.scaleWf (s : State) : Prop := ∀ v ∈ s.rsc, v.toNat ≤ 18

/-- `STATUS` reads as one of the legal words (R26). -/
abbrev State.statusWf (s : State) : Prop := s.statusWord ∈ legalStatusWords

/-- The invariant of the machine. -/
structure State.Inv (s : State) : Prop where
  config : s.config.wf
  text : s.textWf
  scale : s.scaleWf
  status : s.statusWf

end Sys2Proof.Machine
end

