-- ==== Sys2Proof/Certificates/Slice0/Reference.lean ====
section
/-! DEFINITION. The words the statements of Obligations.lean are written in: what a command leaves alone, how it ends, the
table of fault causes (60_exceptions.md R202, R203), which operands a command reads (30_encoding.md R74), and rounding
defined on exact rationals (95_test_vectors.md section 2.4). They are written from the rules and the registers, not from
the operations of the model. -/

namespace Sys2Proof.Reference

open Sys2Proof.Machine

/-! ### How a command ends -/

/-- What no command changes (10_state.md R21, R29, R30, R34): the operand registers, `TLEN`, every byte of `TXT`, and the
model's own fields. -/
def Untouched (s t : State) : Prop :=
  t.a = s.a ∧ t.b = s.b ∧ t.c = s.c ∧ t.tlen = s.tlen ∧
    (∀ i, Memory.read t.txt i = Memory.read s.txt i) ∧
    t.config = s.config ∧ t.script = s.script ∧ t.hostReads = s.hostReads

/-- Completion (R23, R26): `R0` and `R1` hold exactly these signed values (none is invalid), `RSC` this scale,
`STATUS[7:0]` reads `low`, the rest of `STATUS` is as before, and nothing else changes. -/
def Completes (s t : State) (r0 r1 : Option Int) (rsc : Option Nat) (low : BitVec 8) : Prop :=
  t.r0.map BitVec.toInt = r0 ∧ t.r1.map BitVec.toInt = r1 ∧ t.rsc.map BitVec.toNat = rsc ∧
    t.statusWord.extractLsb' 0 8 = low ∧ t.statusWord.extractLsb' 8 24 = s.statusWord.extractLsb' 8 24 ∧ Untouched s t

/-- Fault entry (R205) with the cause of this code (R201): `STATUS` is `0x100 + 0x200 * code`, the `fault` output is 1,
every result is invalid, and nothing else changes. -/
def FaultsWith (s t : State) (code : Nat) : Prop :=
  t.r0 = none ∧ t.r1 = none ∧ t.rsc = none ∧ t.statusWord = BitVec.ofNat 32 (0x100 + 0x200 * code) ∧
    t.faultOutput = true ∧ Untouched s t

/-- A command that is executed and takes a fault. -/
def ExecFaults (i : Instr) (s : State) (code : Nat) : Prop := ∃ t, exec i s = .next t ∧ FaultsWith s t code

/-- A command that is executed and completes. -/
def ExecCompletes (i : Instr) (s : State) (r0 r1 : Option Int) (rsc : Option Nat) (low : BitVec 8) : Prop :=
  ∃ t, exec i s = .next t ∧ Completes s t r0 r1 rsc low

/-- An absent result: nothing valid, `OVF` alone (R12, R26). -/
def ExecAbsent (i : Instr) (s : State) : Prop := ExecCompletes i s none none none 0x08#8

/-! ### Values -/

/-- A true value that fits the signed 128-bit range (R18). -/
abbrev Fits (z : Int) : Prop := -2 ^ 127 ≤ z ∧ z ≤ 2 ^ 127 - 1

/-- The floor quotient. -/
def floorQuotient (n y : Int) : Int := n.fdiv y

/-- The floor remainder, `n - q * y`. -/
def floorRemainder (n y : Int) : Int := n - floorQuotient n y * y

/-- The absent criterion of the wide composites (R130, conflict C1): the magnitude quotient exceeds 2^127 - 1. -/
abbrev TooLarge (n y : Int) : Prop := 2 ^ 127 - 1 < n.natAbs / y.natAbs

/-! ### Fault causes (R202, R203) -/

/-- Does the cause with this code apply to the command in this state? The table of R203, row by row; the rescaled
coefficients of `ADJ` are those of R104. -/
def CauseApplies (i : Instr) (s : State) (code : Nat) : Prop :=
  match i with
  | .tenpow n => code = 2 ∧ 38 < n
  | .mulp10 n => code = 2 ∧ 38 < n ∨ code = 8 ∧ ¬Fits (s.a.toInt * 10 ^ n)
  | .cmulp10 n => code = 2 ∧ 38 < n
  | .adj s1 s2 =>
    code = 3 ∧ (18 < s1 ∨ 18 < s2) ∨
      code = 8 ∧ ¬(Fits (s.a.toInt * 10 ^ (max s1 s2 - s1)) ∧ Fits (s.b.toInt * 10 ^ (max s1 s2 - s2)))
  | .cadj s1 s2 => code = 3 ∧ (18 < s1 ∨ 18 < s2)
  | .sdivf p => code = 2 ∧ 38 < p ∨ code = 5 ∧ s.b.toInt = 0
  | .dmdf => code = 5 ∧ s.c.toInt = 0 ∨ code = 6 ∧ s.c.toInt < 0
  | .divmodf => code = 5 ∧ s.b.toInt = 0 ∨ code = 7 ∧ s.a.toInt = -2 ^ 127 ∧ s.b.toInt = -1
  | .divr _ => code = 5 ∧ s.b.toInt = 0 ∨ code = 7 ∧ s.a.toInt = -2 ^ 127 ∧ s.b.toInt = -1
  | .sdivr p _ => code = 2 ∧ 38 < p ∨ code = 5 ∧ s.b.toInt = 0
  | .mdtpr p _ => code = 2 ∧ 38 < p
  | .parse => code = 4 ∧ s.config.textMax < s.tlen.toNat

/-- The cause that is taken when several apply: the one with the lowest code (R202). -/
def FirstCause (i : Instr) (s : State) (code : Nat) : Prop :=
  CauseApplies i s code ∧ ∀ c, CauseApplies i s c → code ≤ c

/-! ### What a command reads (30_encoding.md R74) -/

/-- Two states agree on everything the command reads: the registers of the row of R74, and for `PARSE` the text. -/
def SameOperands (i : Instr) (s s' : State) : Prop :=
  match i with
  | .tenpow _ => True
  | .mulp10 _ => s.a = s'.a
  | .cmulp10 _ => s.a = s'.a
  | .adj _ _ => s.a = s'.a ∧ s.b = s'.b
  | .cadj _ _ => s.a = s'.a ∧ s.b = s'.b
  | .sdivf _ => s.a = s'.a ∧ s.b = s'.b
  | .dmdf => s.a = s'.a ∧ s.b = s'.b ∧ s.c = s'.c
  | .divmodf => s.a = s'.a ∧ s.b = s'.b
  | .divr _ => s.a = s'.a ∧ s.b = s'.b
  | .sdivr _ _ => s.a = s'.a ∧ s.b = s'.b
  | .mdtpr _ _ => s.a = s'.a ∧ s.b = s'.b
  | .parse =>
    s.tlen = s'.tlen ∧ s.config = s'.config ∧
      ∀ j, j < s.tlen.toNat → Memory.read s.txt j = Memory.read s'.txt j

/-- The same outcome: the same results and the same `STATUS`, or the same stop. -/
def SameOutcome (x y : StepOutcome) : Prop :=
  match x, y with
  | .next t, .next t' => t.r0 = t'.r0 ∧ t.r1 = t'.r1 ∧ t.rsc = t'.rsc ∧ t.status = t'.status
  | .fault f, .fault g => f = g
  | .refused f, .refused g => f = g
  | .next _, .fault _ => False
  | .next _, .refused _ => False
  | .fault _, .next _ => False
  | .fault _, .refused _ => False
  | .refused _, .next _ => False
  | .refused _, .fault _ => False

/-- The bytes `PARSE` covers, in index order (44_parser.md R180). -/
def TextIs (s : State) (t : List Byte) : Prop :=
  t.length = s.tlen.toNat ∧ ∀ j, (h : j < t.length) → Memory.read s.txt j = some t[j]

/-! ### Rounding on exact rationals (95_test_vectors.md section 2.4) -/

/-- Round to the nearest integer, `tie` being taken when both are equally near. -/
def nearestOr (t : ℚ) (tie : ℤ) : ℤ :=
  if t - ⌊t⌋ < 1 / 2 then ⌊t⌋ else if 1 / 2 < t - ⌊t⌋ then ⌊t⌋ + 1 else tie

/-- The integer that a mode selects for the exact quotient `t` (43_rounding_engine.md R161, R162). Away from zero and
toward zero are taken by the sign of `t`. -/
def roundRational (mode : RoundingMode) (t : ℚ) : ℤ :=
  match mode with
  | .floor => ⌊t⌋
  | .ceiling => ⌈t⌉
  | .up => if 0 ≤ t then ⌈t⌉ else ⌊t⌋
  | .down => if 0 ≤ t then ⌊t⌋ else ⌈t⌉
  | .halfUp => nearestOr t (if 0 ≤ t then ⌊t⌋ + 1 else ⌊t⌋)
  | .halfDown => nearestOr t (if 0 ≤ t then ⌊t⌋ else ⌊t⌋ + 1)
  | .halfEven => nearestOr t (if ⌊t⌋ % 2 = 0 then ⌊t⌋ else ⌊t⌋ + 1)
  | .halfCeiling => nearestOr t (⌊t⌋ + 1)
  | .halfFloor => nearestOr t ⌊t⌋

/-! ### The conditions of IFSET (30_encoding.md R86) -/

/-- Does this `STATUS` word meet the condition? A named flag is its bit of the table of 10_state.md R25, and `PERR = k`
compares bits 7:5. -/
def TestMet (t : StatusTest) (w : BitVec 32) : Prop :=
  match t with
  | .v0 => w.getLsbD 0 = true
  | .v1 => w.getLsbD 1 = true
  | .vs => w.getLsbD 2 = true
  | .ovf => w.getLsbD 3 = true
  | .ovfb => w.getLsbD 4 = true
  | .fault => w.getLsbD 8 = true
  | .perrIs k => w.extractLsb' 5 3 = k

/-! ### Steps -/

/-- The state after the host has taken the first line of its script. -/
def popped (s : State) (rest : List HostAction) : State := { s with script := rest }

end Sys2Proof.Reference
end

