-- ==== Sys2Proof/Certificates/Slice0/Obligations.lean ====
section
/-! DEFINITION. The statements for the provers. Their words are those of Reference.lean. A command statement gives the
outcome for every state and every field value, so it says where the command completes and where it faults. -/

open Sys2Proof Sys2Proof.Machine Sys2Proof.Reference

/-! ### Encoding -/

/-- R72, R75: six command words written out bit by bit (`p2`, `p`, `0000`, `mode`, `op`), each unit once or more,
decode to the commands they stand for. -/
def Obligations.WordsWrittenOutDecode : Prop :=
  decode 0b00000000_00000010_0000_0000_00000001#32 = .command (.tenpow 2) ∧
  decode 0b00000010_00000001_0000_0000_00000100#32 = .command (.adj 1 2) ∧
  decode 0b00000000_00000000_0000_0000_00010001#32 = .command .dmdf ∧
  decode 0b00000000_00000000_0000_0000_00100000#32 = .command .divmodf ∧
  decode 0b00000000_00100110_0000_1000_00110010#32 = .command (.mdtpr 38 .halfFloor) ∧
  decode 0b00000000_00000000_0000_0000_01000000#32 = .command .parse

/-- Decode and encode agree: every well-formed command, with every field at every value its width admits. -/
def Obligations.DecodeOfEncodeIsTheCommand : Prop :=
  ∀ i : Instr, i.wf = true → decode (encode i) = .command i

/-- Each command word has one meaning: what decodes is well formed and encodes back to the same word. -/
def Obligations.EncodeOfDecodeIsTheWord : Prop :=
  ∀ (w : CmdWord) (i : Instr), decode w = .command i → i.wf = true ∧ encode i = w

/-- R75: a word selects a command if and only if `(w & mask) = match`, and for the rounding commands `w[11:8] <= 8` as
well; no word selects two. The numbers are those of the table. -/
def Obligations.WordSelectsRowByMatchAndMask : Prop :=
  ∀ w : CmdWord,
    ((∃ n, decode w = .command (.tenpow n)) ↔ w &&& 0xFF00FFFF#32 = 0x00000001#32) ∧
    ((∃ n, decode w = .command (.mulp10 n)) ↔ w &&& 0xFF00FFFF#32 = 0x00000002#32) ∧
    ((∃ n, decode w = .command (.cmulp10 n)) ↔ w &&& 0xFF00FFFF#32 = 0x00000003#32) ∧
    ((∃ s1 s2, decode w = .command (.adj s1 s2)) ↔ w &&& 0x0000FFFF#32 = 0x00000004#32) ∧
    ((∃ s1 s2, decode w = .command (.cadj s1 s2)) ↔ w &&& 0x0000FFFF#32 = 0x00000005#32) ∧
    ((∃ p, decode w = .command (.sdivf p)) ↔ w &&& 0xFF00FFFF#32 = 0x00000010#32) ∧
    (decode w = .command .dmdf ↔ w &&& 0xFFFFFFFF#32 = 0x00000011#32) ∧
    (decode w = .command .divmodf ↔ w &&& 0xFFFFFFFF#32 = 0x00000020#32) ∧
    ((∃ m, decode w = .command (.divr m)) ↔
      w &&& 0xFFFFF0FF#32 = 0x00000030#32 ∧ (w.extractLsb' 8 4).toNat ≤ 8) ∧
    ((∃ p m, decode w = .command (.sdivr p m)) ↔
      w &&& 0xFF00F0FF#32 = 0x00000031#32 ∧ (w.extractLsb' 8 4).toNat ≤ 8) ∧
    ((∃ p m, decode w = .command (.mdtpr p m)) ↔
      w &&& 0xFF00F0FF#32 = 0x00000032#32 ∧ (w.extractLsb' 8 4).toNat ≤ 8) ∧
    (decode w = .command .parse ↔ w &&& 0xFFFFFFFF#32 = 0x00000040#32)

/-- R73, R76: the fields of a decoded word are its bits, unsigned: `p` bits 23:16, `p2` bits 31:24, and the mode the one
whose number in R76 is bits 11:8. -/
def Obligations.DecodedFieldsAreTheBits : Prop :=
  ∀ w : CmdWord,
    (∀ n, decode w = .command (.tenpow n) ∨ decode w = .command (.mulp10 n) ∨ decode w = .command (.cmulp10 n) ∨
        decode w = .command (.sdivf n) → n = (w.extractLsb' 16 8).toNat) ∧
    (∀ s1 s2, decode w = .command (.adj s1 s2) ∨ decode w = .command (.cadj s1 s2) →
      s1 = (w.extractLsb' 16 8).toNat ∧ s2 = (w.extractLsb' 24 8).toNat) ∧
    (∀ p m, decode w = .command (.sdivr p m) ∨ decode w = .command (.mdtpr p m) →
      p = (w.extractLsb' 16 8).toNat ∧
        [RoundingMode.floor, .ceiling, .up, .down, .halfUp, .halfDown, .halfEven, .halfCeiling,
          .halfFloor][(w.extractLsb' 8 4).toNat]? = some m) ∧
    (∀ m, decode w = .command (.divr m) →
      [RoundingMode.floor, .ceiling, .up, .down, .halfUp, .halfDown, .halfEven, .halfCeiling,
        .halfFloor][(w.extractLsb' 8 4).toNat]? = some m)

/-- R77: the illegal words are exactly those the rule lists. -/
def Obligations.IllegalWordsAreThoseListed : Prop :=
  ∀ w : CmdWord,
    let op := (w.extractLsb' 0 8).toNat
    let mode := (w.extractLsb' 8 4).toNat
    let rsv := (w.extractLsb' 12 4).toNat
    let p := (w.extractLsb' 16 8).toNat
    let p2 := (w.extractLsb' 24 8).toNat
    (∃ why, decode w = .illegal why) ↔
      op ∉ [0x01, 0x02, 0x03, 0x04, 0x05, 0x10, 0x11, 0x20, 0x30, 0x31, 0x32, 0x40] ∨
      rsv ≠ 0 ∨
      mode ≠ 0 ∧ op ∉ [0x30, 0x31, 0x32] ∨
      9 ≤ mode ∧ op ∈ [0x30, 0x31, 0x32] ∨
      p ≠ 0 ∧ op ∈ [0x11, 0x20, 0x30, 0x40] ∨
      p2 ≠ 0 ∧ op ∉ [0x04, 0x05]

/-! ### The step and the command port -/

/-- R70: when the host issues a word that decodes to a command, and the block has not faulted, the step is that
command executed, the host having taken the line from its script. The script is the model's choice (log entry 2). -/
def Obligations.StepRunsDecodedCommand : Prop :=
  ∀ (s : State) (w : CmdWord) (rest : List HostAction) (i : Instr),
    s.script = .issue w :: rest → s.status.fault = none → decode w = .command i →
      step s = exec i (popped s rest)

/-- R77, R205: issuing an illegal word raises `ILLEGAL_CMD`, code 1, and changes nothing else. The script
is the model's choice (log entry 2). -/
def Obligations.IllegalWordRaisesIllegalCmd : Prop :=
  ∀ (s : State) (w : CmdWord) (rest : List HostAction) (why : IllegalWord),
    s.script = .issue w :: rest → s.status.fault = none → decode w = .illegal why →
      ∃ t, step s = .next t ∧ FaultsWith (popped s rest) t 1

/-- R207: while `FAULT` is 1 a command issue is ignored entirely, and host writes to `A`, `B`, `C`, `TLEN` and `TXT`
and the read of `STATUS` still work. The script and the read log are the model's choice (log entries 2 and 4). -/
def Obligations.FaultedBlockIgnoresCommandsOnly : Prop :=
  ∀ (s : State) (rest : List HostAction), s.status.fault ≠ none →
    (∀ w, s.script = .issue w :: rest → step s = .next (popped s rest)) ∧
    (∀ v, s.script = .writeOperand .a v :: rest → step s = .next { popped s rest with a := v }) ∧
    (∀ v, s.script = .writeOperand .b v :: rest → step s = .next { popped s rest with b := v }) ∧
    (∀ v, s.script = .writeOperand .c v :: rest → step s = .next { popped s rest with c := v }) ∧
    (∀ n, s.script = .writeTlen n :: rest → step s = .next { popped s rest with tlen := n }) ∧
    (∀ i b, s.script = .writeText i b :: rest → i < s.config.textMax →
      ∃ t, step s = .next t ∧ Memory.read t.txt i = some b ∧ t.status = s.status) ∧
    (s.script = .readReg .status :: rest →
      step s = .next { popped s rest with hostReads := s.statusWord.setWidth 128 :: s.hostReads })

/-- R206, R207: once a fault is taken, every step but a reset keeps `FAULT` and its first cause, and keeps the results
as they are. The script is the model's choice (log entry 2). -/
def Obligations.FaultIsStickyUntilReset : Prop :=
  ∀ (s t : State) (c : FaultCause), s.status.fault = some c → s.script.head? ≠ some .reset → step s = .next t →
    t.status = s.status ∧ t.r0 = s.r0 ∧ t.r1 = s.r1 ∧ t.rsc = s.rsc

/-- R230, R32: reset puts every piece of state to its value, whatever it was; `TEXT_MAX` and the host's own script and
reads are no state of the block. What stays is the model's choice (log entry 11). -/
def Obligations.ResetActionResetsAllState : Prop :=
  ∀ (s : State) (rest : List HostAction), s.script = .reset :: rest →
    ∃ t, step s = .next t ∧ t.a = 0#128 ∧ t.b = 0#128 ∧ t.c = 0#128 ∧ t.r0 = none ∧ t.r1 = none ∧ t.rsc = none ∧
      t.statusWord = 0#32 ∧ t.faultOutput = false ∧ t.tlen = 0#16 ∧ (∀ i, Memory.read t.txt i = none) ∧
      t.config = s.config ∧ t.script = rest ∧ t.hostReads = s.hostReads

/-- R32: the values after reset. -/
def Obligations.ResetStateHoldsTheResetValues : Prop :=
  State.reset.a = 0#128 ∧ State.reset.b = 0#128 ∧ State.reset.c = 0#128 ∧ State.reset.r0 = none ∧
    State.reset.r1 = none ∧ State.reset.rsc = none ∧ State.reset.statusWord = 0#32 ∧ State.reset.tlen = 0#16 ∧
    (∀ i, Memory.read State.reset.txt i = none) ∧ State.reset.faultOutput = false

/-! ### Host accesses -/

/-- R55, R58, R238: a host write to `A`, `B`, `C`, `TLEN` or a byte of `TXT` is what the host's next read of that
place returns, and the read changes nothing in the block. The script and the read log are the model's choice (log
entries 2 and 4). -/
def Obligations.HostReadReturnsTheLatestWrite : Prop :=
  ∀ (s : State) (rest : List HostAction),
    (∀ (r : OperandReg) (h : HostReg) (v : Word), (r, h) ∈ [(OperandReg.a, HostReg.a), (.b, .b), (.c, .c)] →
      s.script = .writeOperand r v :: .readReg h :: rest →
        ∃ t u, step s = .next t ∧ step t = .next u ∧ u.hostReads = v :: s.hostReads ∧
          u = { t with script := rest, hostReads := v :: s.hostReads }) ∧
    (∀ n, s.script = .writeTlen n :: .readReg .tlen :: rest →
      ∃ t u, step s = .next t ∧ step t = .next u ∧ u.hostReads = n.setWidth 128 :: s.hostReads ∧
        u = { t with script := rest, hostReads := n.setWidth 128 :: s.hostReads }) ∧
    (∀ i b, i < s.config.textMax → s.script = .writeText i b :: .readText i :: rest →
      ∃ t u, step s = .next t ∧ step t = .next u ∧ u.hostReads = b.setWidth 128 :: s.hostReads ∧
        u = { t with script := rest, hostReads := b.setWidth 128 :: s.hostReads })

/-- R30, R58: a host write of `TXT[i]` changes that byte and nothing else: every other byte reads as before. The
script is the model's choice (log entry 2). -/
def Obligations.TextWriteChangesOneByte : Prop :=
  ∀ (s : State) (i : Nat) (b : Byte) (rest : List HostAction),
    s.script = .writeText i b :: rest → i < s.config.textMax →
      ∃ t, step s = .next t ∧
        (∀ j, Memory.read t.txt j = if j = i then some b else Memory.read s.txt j) ∧
        t = { popped s rest with txt := t.txt }

/-- R55: a host write to `R0`, `R1`, `RSC` or `STATUS` is ignored. The script is the model's choice (log entries 2 and
13). -/
def Obligations.ReadOnlyWritesAreIgnored : Prop :=
  ∀ (s : State) (r : ReadOnlyReg) (v : Word) (rest : List HostAction),
    s.script = .writeReadOnly r v :: rest → step s = .next (popped s rest)

/-- R24: reading `R0`, `R1` or `RSC` returns the value while the register is valid, and is a fault of the host script
while it is not; reading `STATUS` always works. The script, the read log with its 128-bit form of `RSC` and `STATUS`, and
the name of the stop are the model's choice (log entries 2, 4 and 6). -/
def Obligations.ResultReadsNeedValidity : Prop :=
  ∀ (s : State) (rest : List HostAction),
    (∀ v, s.r0 = some v → s.script = .readReg .r0 :: rest →
      step s = .next { popped s rest with hostReads := v :: s.hostReads }) ∧
    (∀ v, s.r1 = some v → s.script = .readReg .r1 :: rest →
      step s = .next { popped s rest with hostReads := v :: s.hostReads }) ∧
    (∀ v, s.rsc = some v → s.script = .readReg .rsc :: rest →
      step s = .next { popped s rest with hostReads := v.setWidth 128 :: s.hostReads }) ∧
    (s.script = .readReg .status :: rest →
      step s = .next { popped s rest with hostReads := s.statusWord.setWidth 128 :: s.hostReads }) ∧
    (s.r0 = none → s.script = .readReg .r0 :: rest → step s = .fault (.invalidResultRead .r0)) ∧
    (s.r1 = none → s.script = .readReg .r1 :: rest → step s = .fault (.invalidResultRead .r1)) ∧
    (s.rsc = none → s.script = .readReg .rsc :: rest → step s = .fault (.invalidResultRead .rsc))

/-- R54, R62: a text access at `i >= TEXT_MAX` is refused, and a read of a byte never written stops. The names of the
stops are the model's (log entries 5 and 7). -/
def Obligations.TextAccessStopsWhereNothingIsHeld : Prop :=
  ∀ (s : State) (i : Nat) (rest : List HostAction),
    (s.config.textMax ≤ i → s.script = .readText i :: rest → step s = .refused (.noTextLocation i)) ∧
    (∀ b, s.config.textMax ≤ i → s.script = .writeText i b :: rest → step s = .refused (.noTextLocation i)) ∧
    (i < s.config.textMax → Memory.read s.txt i = none → s.script = .readText i :: rest →
      step s = .fault (.unwrittenText i))

/-- R21, R22, R29, R30, R34: who writes what. Only a command issue or a reset changes the results and `STATUS`; only a
host write of the register, or a reset, changes `A`, `B`, `C`, `TLEN` or `TXT`; nothing changes `TEXT_MAX`. The script
is the model's choice (log entry 2). -/
def Obligations.OnlyTheNamedWriterChangesAPlace : Prop :=
  ∀ (s t : State) (act : HostAction) (rest : List HostAction), s.script = act :: rest → step s = .next t →
    ((∀ w, act ≠ .issue w) → act ≠ .reset →
      t.r0 = s.r0 ∧ t.r1 = s.r1 ∧ t.rsc = s.rsc ∧ t.status = s.status) ∧
    ((∀ v, act ≠ .writeOperand .a v) → act ≠ .writeLastRead .a → act ≠ .reset → t.a = s.a) ∧
    ((∀ v, act ≠ .writeOperand .b v) → act ≠ .writeLastRead .b → act ≠ .reset → t.b = s.b) ∧
    ((∀ v, act ≠ .writeOperand .c v) → act ≠ .writeLastRead .c → act ≠ .reset → t.c = s.c) ∧
    ((∀ n, act ≠ .writeTlen n) → act ≠ .reset → t.tlen = s.tlen) ∧
    ((∀ i b, act ≠ .writeText i b) → act ≠ .reset → t.txt = s.txt) ∧
    t.config = s.config

/-! ### STATUS -/

/-- `STATUS` field by field (the layout of R25, the codes of R201), and the `fault` output (R33). That the fields the bits
are compared with are what is stored is the model's choice (log entry 9). -/
def Obligations.StatusFieldsStandAtTheirBits : Prop :=
  ∀ s : State,
    s.statusWord.getLsbD 0 = s.r0.isSome ∧ s.statusWord.getLsbD 1 = s.r1.isSome ∧
    s.statusWord.getLsbD 2 = s.rsc.isSome ∧ s.statusWord.getLsbD 3 = s.status.ovf ∧
    s.statusWord.getLsbD 4 = s.status.ovfb ∧
    s.statusWord.extractLsb' 5 3 =
      (match s.status.perr with
        | none => 0#3
        | some .emptyInput => 1#3
        | some .noDigitsFound => 2#3
        | some .malformedSignOrExponent => 3#3
        | some .scaleExceedsMaximum => 4#3) ∧
    s.statusWord.getLsbD 8 = s.status.fault.isSome ∧
    s.statusWord.extractLsb' 9 4 =
      (match s.status.fault with
        | none => 0#4
        | some .illegalCmd => 1#4
        | some .powRange => 2#4
        | some .scaleRange => 3#4
        | some .textRange => 4#4
        | some .zeroDivisor => 5#4
        | some .divisorSign => 6#4
        | some .divOverflow => 7#4
        | some .uncheckedOverflow => 8#4) ∧
    s.statusWord.extractLsb' 13 19 = 0#19 ∧
    s.faultOutput = s.statusWord.getLsbD 8

/-! ### The invariant -/

/-- The invariant holds after reset. -/
def Obligations.ResetMeetsTheInvariant : Prop := State.reset.Inv

/-- Every step keeps the invariant: `TEXT_MAX` in its range, the text buffer in canonical form below `TEXT_MAX`, a scale
of at most 18 (R19), and `STATUS` one of the legal words (R26). -/
def Obligations.StepKeepsTheInvariant : Prop := ∀ s t : State, s.Inv → step s = .next t → t.Inv

/-! ### power_of_ten_scaler -/

/-- R100: the table holds the exact powers. -/
def Obligations.TableHoldsThePowersOfTen : Prop :=
  tenTable.length = 39 ∧ ∀ n, n ≤ 38 → (tenEntry n).toNat = 10 ^ n

/-- R101: `TENPOW n` gives 10^n alone, and `POW_RANGE` (code 2) above 38. -/
def Obligations.TenpowGivesThePower : Prop :=
  ∀ (n : Nat) (s : State),
    opField (encode (.tenpow n)) = 0x01#8 ∧
    (38 < n → ExecFaults (.tenpow n) s 2) ∧
    (n ≤ 38 → ExecCompletes (.tenpow n) s (some (10 ^ n)) none none 0x01#8)

/-- R102: `MULP10 n` gives the exact product, `UNCHECKED_OVERFLOW` (code 8) where it does not fit. -/
def Obligations.Mulp10GivesTheProductOrFaults : Prop :=
  ∀ (n : Nat) (s : State),
    let z := s.a.toInt * 10 ^ n
    opField (encode (.mulp10 n)) = 0x02#8 ∧
    (38 < n → ExecFaults (.mulp10 n) s 2) ∧
    (n ≤ 38 → ¬Fits z → ExecFaults (.mulp10 n) s 8) ∧
    (n ≤ 38 → Fits z → ExecCompletes (.mulp10 n) s (some z) none none 0x01#8)

/-- R103: `CMULP10 n` gives the exact product, an absent result where it does not fit. -/
def Obligations.Cmulp10GivesTheProductOrAbsent : Prop :=
  ∀ (n : Nat) (s : State),
    let z := s.a.toInt * 10 ^ n
    opField (encode (.cmulp10 n)) = 0x03#8 ∧
    (38 < n → ExecFaults (.cmulp10 n) s 2) ∧
    (n ≤ 38 → ¬Fits z → ExecAbsent (.cmulp10 n) s) ∧
    (n ≤ 38 → Fits z → ExecCompletes (.cmulp10 n) s (some z) none none 0x01#8)

/-- R106: the index check of the six commands with a power index, whatever the operand registers hold. -/
def Obligations.PowerIndexAbove38Faults : Prop :=
  ∀ (n : Nat) (m : RoundingMode) (s : State) (i : Instr), 38 < n →
    i ∈ [.tenpow n, .mulp10 n, .cmulp10 n, .sdivf n, .sdivr n m, .mdtpr n m] → ExecFaults i s 2

/-- R104: `ADJ s1, s2` brings both coefficients to the larger scale; scales above 18 fault with `SCALE_RANGE` (code 3), a
coefficient that leaves the range with `UNCHECKED_OVERFLOW` (code 8). -/
def Obligations.AdjGivesBothCoefficientsAtTheLargerScale : Prop :=
  ∀ (s1 s2 : Nat) (s : State),
    let z1 := s.a.toInt * 10 ^ (max s1 s2 - s1)
    let z2 := s.b.toInt * 10 ^ (max s1 s2 - s2)
    opField (encode (.adj s1 s2)) = 0x04#8 ∧
    (18 < s1 ∨ 18 < s2 → ExecFaults (.adj s1 s2) s 3) ∧
    (s1 ≤ 18 → s2 ≤ 18 → ¬(Fits z1 ∧ Fits z2) → ExecFaults (.adj s1 s2) s 8) ∧
    (s1 ≤ 18 → s2 ≤ 18 → Fits z1 → Fits z2 →
      ExecCompletes (.adj s1 s2) s (some z1) (some z2) (some (max s1 s2)) 0x07#8)

/-- R105: `CADJ s1, s2` as `ADJ`, but each side that overflows is reported on its own and the other is delivered with the
scale. -/
def Obligations.CadjReportsEachSide : Prop :=
  ∀ (s1 s2 : Nat) (s : State),
    let z1 := s.a.toInt * 10 ^ (max s1 s2 - s1)
    let z2 := s.b.toInt * 10 ^ (max s1 s2 - s2)
    opField (encode (.cadj s1 s2)) = 0x05#8 ∧
    (18 < s1 ∨ 18 < s2 → ExecFaults (.cadj s1 s2) s 3) ∧
    (s1 ≤ 18 → s2 ≤ 18 → Fits z1 → Fits z2 →
      ExecCompletes (.cadj s1 s2) s (some z1) (some z2) (some (max s1 s2)) 0x07#8) ∧
    (s1 ≤ 18 → s2 ≤ 18 → ¬Fits z1 →
      ExecCompletes (.cadj s1 s2) s none (some z2) (some (max s1 s2)) 0x0E#8) ∧
    (s1 ≤ 18 → s2 ≤ 18 → ¬Fits z2 →
      ExecCompletes (.cadj s1 s2) s (some z1) none (some (max s1 s2)) 0x15#8)

/-! ### wide_multiplier and wide_divider -/

/-- R120: the pair of `U-WMUL` is the exact product. -/
def Obligations.WideProductIsExact : Prop :=
  ∀ a b2 : Word, wideValue (wideMul a b2).1 (wideMul a b2).2 = a.toNat * b2.toNat

/-- R122: the quotient and remainder of `U-WDIVREM` are exact. -/
def Obligations.WideQuotientIsExact : Prop :=
  ∀ hi lo d : Word, d ≠ 0#128 →
    let w := wideDivRem hi lo d
    wideValue w.qhi w.qlo = wideValue hi lo / d.toNat ∧ w.rem.toNat = wideValue hi lo % d.toNat ∧
      wideValue hi lo = wideValue w.qhi w.qlo * d.toNat + w.rem.toNat ∧ w.rem.toNat < d.toNat

/-- R120, R121: the four-limb arrangement, every sum kept in 128 bits, gives the exact product: no carry is lost. The
arrangement is the spec's own, from general knowledge (R121). -/
def Obligations.LimbMultiplierRefinesTheProduct : Prop := ∀ a b2 : Word, limbMul a b2 = wideMul a b2

/-- R124: tier 1 is exact for a divisor below 2^64. The rendering is the spec's own, from general knowledge (R124). -/
def Obligations.DividerTierOneIsExact : Prop :=
  ∀ hi lo d : Word, d ≠ 0#128 → d.toNat < 2 ^ 64 → divTier1 hi lo d = wideDivRem hi lo d

/-- R125: the digit loop of tier 2 gives the exact quotient digit for a normalized divisor, and needs at most two
corrections: any bound of at least two gives the same digit. The bound is the model's rendering of the loop (log entry
16). -/
def Obligations.QuotientDigitIsExactAfterTwoCorrections : Prop :=
  ∀ (v u nxt : Word) (k : Nat), 2 ^ 127 ≤ v.toNat → u.toNat < v.toNat → nxt.toNat < 2 ^ 64 → 2 ≤ k →
    (correctDigit (highHalf v) (lowHalf v) nxt k (u / highHalf v) (u % highHalf v)).toNat =
      (u.toNat * 2 ^ 64 + nxt.toNat) / v.toNat

/-- R123 to R126: the three-tier divider gives the exact quotient and remainder for every dividend and every non-zero
divisor. -/
def Obligations.TieredDividerRefinesTheQuotient : Prop :=
  ∀ hi lo d : Word, d ≠ 0#128 → tieredDivRem hi lo d = wideDivRem hi lo d

/-- R130: `WIDE_FLOOR` is absent exactly when the magnitude quotient exceeds 2^127 - 1, and otherwise gives the floor
quotient and remainder, both in range. That this is floor division is the spec's own derivation: "When present, q =
floor(N / y) and r = N - q * y exactly". -/
def Obligations.WideFloorIsFloorDivisionOrAbsent : Prop :=
  ∀ (hi lo : Word) (negN : Bool) (y : Word), y.toInt ≠ 0 → (negN = true → 0 < wideValue hi lo) →
    let n : Int := if negN then -(wideValue hi lo : Int) else (wideValue hi lo : Int)
    (TooLarge n y.toInt → wideFloor hi lo negN y = none) ∧
    (¬TooLarge n y.toInt →
      wideFloor hi lo negN y = some ⟨floorQuotient n y.toInt, floorRemainder n y.toInt⟩ ∧
        Fits (floorQuotient n y.toInt) ∧ Fits (floorRemainder n y.toInt))

/-- R131: `SDIVF p`, for every operand and every `p`. -/
def Obligations.SdivfGivesTheFloorPairOrAbsent : Prop :=
  ∀ (p : Nat) (s : State),
    let n := s.a.toInt * 10 ^ p
    let y := s.b.toInt
    opField (encode (.sdivf p)) = 0x10#8 ∧
    (38 < p → ExecFaults (.sdivf p) s 2) ∧
    (p ≤ 38 → y = 0 → ExecFaults (.sdivf p) s 5) ∧
    (p ≤ 38 → y ≠ 0 → TooLarge n y → ExecAbsent (.sdivf p) s) ∧
    (p ≤ 38 → y ≠ 0 → ¬TooLarge n y →
      ExecCompletes (.sdivf p) s (some (floorQuotient n y)) (some (floorRemainder n y)) none 0x03#8)

/-- R132: `DMDF`, for every operand. -/
def Obligations.DmdfGivesTheFloorPairOrAbsent : Prop :=
  ∀ s : State,
    let n := s.a.toInt * s.b.toInt
    let y := s.c.toInt
    opField (encode .dmdf) = 0x11#8 ∧
    (y = 0 → ExecFaults .dmdf s 5) ∧
    (y < 0 → ExecFaults .dmdf s 6) ∧
    (0 < y → TooLarge n y → ExecAbsent .dmdf s) ∧
    (0 < y → ¬TooLarge n y →
      0 ≤ floorRemainder n y ∧ floorRemainder n y < y ∧
      ExecCompletes .dmdf s (some (floorQuotient n y)) (some (floorRemainder n y)) none 0x03#8)

/-! ### floor_div_mod_converter -/

/-- R150: the converter's postcondition for every truncating pair, with no result out of range. The range is the
spec's own derivation: "Neither qt - 1 nor rt + y can leave the i128 range". -/
def Obligations.FloorConverterMeetsItsPostcondition : Prop :=
  ∀ x y qt rt : Int, Fits x → Fits y → Fits qt → y ≠ 0 → x = qt * y + rt → rt.natAbs < y.natAbs →
    (rt = 0 ∨ rt.sign = x.sign) →
      let fp := floorConvert qt rt y
      x = fp.q * y + fp.r ∧ fp.r.natAbs < y.natAbs ∧ (fp.r ≠ 0 → fp.r.sign = y.sign) ∧ Fits fp.q ∧ Fits fp.r

/-- R152: `DIVMODF`, for every operand; `DIV_OVERFLOW` is code 7. -/
def Obligations.DivmodfGivesTheFloorPair : Prop :=
  ∀ s : State,
    let x := s.a.toInt
    let y := s.b.toInt
    opField (encode .divmodf) = 0x20#8 ∧
    (y = 0 → ExecFaults .divmodf s 5) ∧
    (x = -2 ^ 127 → y = -1 → ExecFaults .divmodf s 7) ∧
    (y ≠ 0 → ¬(x = -2 ^ 127 ∧ y = -1) →
      ExecCompletes .divmodf s (some (floorQuotient x y)) (some (floorRemainder x y)) none 0x03#8)

/-- R16: the floor convention of every command that gives a remainder, read from the result registers. -/
def Obligations.RemaindersFollowTheDivisor : Prop :=
  ∀ (i : Instr) (s t : State) (y : Word),
    (∃ p, i = .sdivf p ∧ y = s.b) ∨ i = .dmdf ∧ y = s.c ∨ i = .divmodf ∧ y = s.b → y.toInt ≠ 0 →
    exec i s = .next t → ∀ r ∈ t.r1, r.toInt.natAbs < y.toInt.natAbs ∧ (r.toInt ≠ 0 → r.toInt.sign = y.toInt.sign)

/-! ### rounding_engine -/

/-- R161, R162: the two tables of the policy selector, mode by mode, and 0 in every mode for `r = 0` (R160). The sign
of the quotient is taken from `q`, the spec's own derivation (R160): "neg = (q < 0) stands for s < 0". -/
def Obligations.RoundIncrementFollowsTheTables : Prop :=
  ∀ q r y : Int,
    (r = 0 → ∀ m, roundIncrement m q r y = 0) ∧
    (r ≠ 0 → 0 ≤ q →
      roundIncrement .floor q r y = 0 ∧ roundIncrement .ceiling q r y = 1 ∧ roundIncrement .up q r y = 1 ∧
        roundIncrement .down q r y = 0) ∧
    (r ≠ 0 → q < 0 →
      roundIncrement .floor q r y = 0 ∧ roundIncrement .ceiling q r y = 1 ∧ roundIncrement .up q r y = 0 ∧
        roundIncrement .down q r y = 1) ∧
    (r ≠ 0 → ∀ m ∈ [RoundingMode.halfUp, .halfDown, .halfEven, .halfCeiling, .halfFloor],
      (2 * r.natAbs < y.natAbs → roundIncrement m q r y = 0) ∧
      (y.natAbs < 2 * r.natAbs → roundIncrement m q r y = 1)) ∧
    (r ≠ 0 → 2 * r.natAbs = y.natAbs →
      roundIncrement .halfUp q r y = (if q < 0 then 0 else 1) ∧
      roundIncrement .halfDown q r y = (if q < 0 then 1 else 0) ∧
      roundIncrement .halfEven q r y = (if (BitVec.ofInt 128 q).getLsbD 0 then 1 else 0) ∧
      roundIncrement .halfCeiling q r y = 1 ∧ roundIncrement .halfFloor q r y = 0)

/-- The engine's value is the exact quotient rounded by the mode, for every mode and both signs of the divisor (95_test_vectors.md
section 2.4, here without the bounds of that check; conflict C2). -/
def Obligations.RoundedValueIsRationalRounding : Prop :=
  ∀ (m : RoundingMode) (n y : Int), y ≠ 0 →
    rounded m ⟨floorQuotient n y, floorRemainder n y⟩ y = roundRational m ((n : ℚ) / (y : ℚ))

/-- R163: `DIVR mode` delivers the floor quotient plus the increment, for every operand. -/
def Obligations.DivrGivesTheRoundedQuotient : Prop :=
  ∀ (m : RoundingMode) (s : State),
    let x := s.a.toInt
    let y := s.b.toInt
    let q := floorQuotient x y
    opField (encode (.divr m)) = 0x30#8 ∧
    (y = 0 → ExecFaults (.divr m) s 5) ∧
    (x = -2 ^ 127 → y = -1 → ExecFaults (.divr m) s 7) ∧
    (y ≠ 0 → ¬(x = -2 ^ 127 ∧ y = -1) →
      ExecCompletes (.divr m) s (some (q + roundIncrement m q (floorRemainder x y) y)) none none 0x01#8)

/-- R164: `SDIVR p, mode`, for every operand and every field value. -/
def Obligations.SdivrGivesTheRoundedQuotientOrAbsent : Prop :=
  ∀ (p : Nat) (m : RoundingMode) (s : State),
    let n := s.a.toInt * 10 ^ p
    let y := s.b.toInt
    let q := floorQuotient n y
    let inc := roundIncrement m q (floorRemainder n y) y
    opField (encode (.sdivr p m)) = 0x31#8 ∧
    (38 < p → ExecFaults (.sdivr p m) s 2) ∧
    (p ≤ 38 → y = 0 → ExecFaults (.sdivr p m) s 5) ∧
    (p ≤ 38 → y ≠ 0 → TooLarge n y ∨ q = 2 ^ 127 - 1 ∧ inc = 1 → ExecAbsent (.sdivr p m) s) ∧
    (p ≤ 38 → y ≠ 0 → ¬(TooLarge n y ∨ q = 2 ^ 127 - 1 ∧ inc = 1) →
      ExecCompletes (.sdivr p m) s (some (q + inc)) none none 0x01#8)

/-- R165: `MDTPR p, mode`, for every operand and every field value; `C` does not occur. -/
def Obligations.MdtprGivesTheRoundedProductOrAbsent : Prop :=
  ∀ (p : Nat) (m : RoundingMode) (s : State),
    let n := s.a.toInt * s.b.toInt
    let y : Int := 10 ^ p
    let q := floorQuotient n y
    let inc := roundIncrement m q (floorRemainder n y) y
    opField (encode (.mdtpr p m)) = 0x32#8 ∧
    (38 < p → ExecFaults (.mdtpr p m) s 2) ∧
    (p ≤ 38 → TooLarge n y ∨ q = 2 ^ 127 - 1 ∧ inc = 1 → ExecAbsent (.mdtpr p m) s) ∧
    (p ≤ 38 → ¬(TooLarge n y ∨ q = 2 ^ 127 - 1 ∧ inc = 1) →
      ExecCompletes (.mdtpr p m) s (some (q + inc)) none none 0x01#8)

/-! ### decimal_text_parser -/

/-- R181, R183, R184: the classification of every byte string. A text the grammar derives gives its value, or kind 4 when
that value does not fit; any other text gives the kind of its defect. -/
def Obligations.ParserClassifiesEveryText : Prop :=
  (∀ n : Numeral, n.scale ≤ 18 → Fits n.coefficient → parseText n.spell = .success n.coefficient n.scale) ∧
  (∀ n : Numeral, ¬(n.scale ≤ 18 ∧ Fits n.coefficient) → parseText n.spell = .error .scaleExceedsMaximum) ∧
  parseText [] = .error .emptyInput ∧
  (∀ t ∈ ([[0x2B#8], [0x2D#8], [0x2E#8], [0x2B#8, 0x2E#8], [0x2D#8, 0x2E#8]] : List (List Byte)),
    parseText t = .error .noDigitsFound) ∧
  (∀ t : List Byte, t ≠ [] →
    t ∉ ([[0x2B#8], [0x2D#8], [0x2E#8], [0x2B#8, 0x2E#8], [0x2D#8, 0x2E#8]] : List (List Byte)) →
    (∀ n : Numeral, n.spell ≠ t) → parseText t = .error .malformedSignOrExponent)

/-- R186: the registers of the stated widths suffice for every text that a 16-bit `TLEN` can name. The widths are the
spec's own derivation. -/
def Obligations.BoundedRegistersSuffice : Prop :=
  ∀ t : List Byte, t.length ≤ 65535 → boundedParseText t = parseText t

/-- R187: formatting then parsing gives back the pair, for every coefficient and every scale of at most 18; the text
has at most 41 bytes. The formatter is one the spec fixes for the test. -/
def Obligations.FormattedPairParsesBack : Prop :=
  ∀ (c : Int) (scale : Nat), Fits c → scale ≤ 18 →
    parseText (formatDecimal c scale) = .success c scale ∧ (formatDecimal c scale).length ≤ 41

/-- R185: `PARSE`, on every text whose bytes have been written; a text with an unwritten byte gives it no next state. -/
def Obligations.ParseDeliversTheClassification : Prop :=
  ∀ s : State,
    opField (encode .parse) = 0x40#8 ∧
    (s.config.textMax < s.tlen.toNat → ExecFaults .parse s 4) ∧
    (s.tlen.toNat ≤ s.config.textMax → (∃ j, j < s.tlen.toNat ∧ Memory.read s.txt j = none) →
      ∀ u, exec .parse s ≠ .next u) ∧
    (∀ t, s.tlen.toNat ≤ s.config.textMax → TextIs s t →
      (∀ c scale, parseText t = .success c scale → ExecCompletes .parse s (some c) none (some scale) 0x05#8) ∧
      (parseText t = .error .emptyInput → ExecCompletes .parse s none none none 0x20#8) ∧
      (parseText t = .error .noDigitsFound → ExecCompletes .parse s none none none 0x40#8) ∧
      (parseText t = .error .malformedSignOrExponent → ExecCompletes .parse s none none none 0x60#8) ∧
      (parseText t = .error .scaleExceedsMaximum → ExecCompletes .parse s none none none 0x80#8))

/-- R62: a `PARSE` whose `TLEN` covers a byte never written stops, at the first such byte. The name of the stop is the
model's (log entry 5). -/
def Obligations.ParseOfAnUnwrittenByteStops : Prop :=
  ∀ (s : State) (i : Nat), s.tlen.toNat ≤ s.config.textMax → i < s.tlen.toNat → Memory.read s.txt i = none →
    (∀ j, j < i → Memory.read s.txt j ≠ none) → exec .parse s = .fault (.unwrittenText i)

/-! ### Whole-machine rules -/

/-- R202, R203: the fault that is taken is the applicable cause with the lowest code, and a command raises no fault that
the table does not give it. -/
def Obligations.LowestApplicableCauseIsTaken : Prop :=
  ∀ (i : Instr) (s : State),
    (∀ code, FirstCause i s code → ExecFaults i s code) ∧
    ((∀ code, ¬CauseApplies i s code) → ∀ t, exec i s = .next t → t.status.fault = s.status.fault)

/-- R21, R23, R26, R34: the frame of every command. Whatever its outcome, it changes nothing but the results and
`STATUS`, and `STATUS[31:8]` only by a fault. -/
def Obligations.CommandsChangeOnlyResultsAndStatus : Prop :=
  ∀ (i : Instr) (s t : State), exec i s = .next t →
    Untouched s t ∧
    ((∃ code, 1 ≤ code ∧ code ≤ 8 ∧ FaultsWith s t code) ∨
      t.statusWord.extractLsb' 8 24 = s.statusWord.extractLsb' 8 24)

/-- R241: every command completes or faults; only `PARSE` over an unwritten byte has no next state (R62). -/
def Obligations.EveryCommandHasANextState : Prop :=
  ∀ (i : Instr) (s : State),
    (i = .parse → ∀ j, j < s.tlen.toNat → Memory.read s.txt j ≠ none) → ∃ t, exec i s = .next t

/-- R19, R74: the outcome of a command is a function of the command and of the operands the table gives it; a register it
does not read cannot change the outcome. -/
def Obligations.OutcomeDependsOnNamedOperandsOnly : Prop :=
  ∀ (i : Instr) (s s' : State), SameOperands i s s' → s.status.fault = s'.status.fault →
    SameOutcome (exec i s) (exec i s')

/-- R204: the same command again with the same operands gives the same outcome. -/
def Obligations.SameCommandAgainGivesTheSameOutcome : Prop :=
  ∀ (i : Instr) (s t : State), exec i s = .next t → exec i t = .next t

/-! ### Host scripts -/

/-- R86: `TEXT "s"` leaves the bytes of `s` in `TXT` from index 0 and its length in `TLEN`, and changes no other byte.
Scripts are the model's choice (log entries 2 and 12). -/
def Obligations.TextLinesLoadTheText : Prop :=
  ∀ (s : State) (t : List Byte) (rest : List HostAction),
    t.length ≤ s.config.textMax → s.config.textMax ≤ 65535 → s.script = scriptText t ++ rest →
      ∃ u, core.run (t.length + 1) s = .next u ∧ TextIs u t ∧
        (∀ j, t.length ≤ j → Memory.read u.txt j = Memory.read s.txt j) ∧
        u = { popped s rest with txt := u.txt, tlen := u.tlen }

/-- R86: `IFSET test … ELSE … END` performs one of the two groups. After the host has read `STATUS` and tested it by the
bits of R25, the lines to come are those of the chosen group, and the `skip` line that closes the first group passes over
the second and changes nothing else. The rendering by skips is the model's choice (log entry 12). -/
def Obligations.IfSetChoosesOneGroup : Prop :=
  (∀ (s : State) (test : StatusTest) (thenLines elseLines rest : List HostAction),
    s.script = scriptIfSet test thenLines elseLines ++ rest →
      (TestMet test s.statusWord →
        core.run 2 s = .next { s with
          script := thenLines ++ .skip elseLines.length :: (elseLines ++ rest)
          hostReads := s.statusWord.setWidth 128 :: s.hostReads }) ∧
      (¬TestMet test s.statusWord →
        core.run 2 s = .next { s with
          script := elseLines ++ rest
          hostReads := s.statusWord.setWidth 128 :: s.hostReads })) ∧
  (∀ (s : State) (elseLines rest : List HostAction), s.script = .skip elseLines.length :: (elseLines ++ rest) →
    step s = .next (popped s rest)) ∧
  (∀ (s : State) (n : Nat) (rest : List HostAction), s.script = .skip n :: rest →
    step s = .next (popped s (rest.drop n))) ∧
  ∀ (test : StatusTest) (w : BitVec 32), test.holds (w.setWidth 128) = true ↔ TestMet test w

/-- R86: `MOV` copies a valid result register, any of the three, to any operand register, in the host's two accesses, and
the result stays. `RSC` is zero-extended (log entry 4). Scripts and the read log are the model's choice (log entries 2, 4
and 12). -/
def Obligations.MovLinesCopyAResult : Prop :=
  ∀ (s : State) (r : OperandReg) (rest : List HostAction),
    let moved (v : Word) : State := { popped s rest with
      a := if r = .a then v else s.a
      b := if r = .b then v else s.b
      c := if r = .c then v else s.c
      hostReads := v :: s.hostReads }
    (∀ v, s.r0 = some v → s.script = scriptMov r .r0 ++ rest → core.run 2 s = .next (moved v)) ∧
    (∀ v, s.r1 = some v → s.script = scriptMov r .r1 ++ rest → core.run 2 s = .next (moved v)) ∧
    (∀ k, s.rsc = some k → s.script = scriptMov r .rsc ++ rest → core.run 2 s = .next (moved (k.setWidth 128)))
end

