-- ==== Sys2Proof/Laws/Values.lean ====
section
/-! SUPPORT. Bit patterns and numbers (00_scope.md R9): what reading a written pattern gives back, magnitudes, and the sign
of a word. -/

namespace Sys2Proof.Machine

/-- Every word reads as a number of the signed 128-bit range. -/
theorem signedValue_inI128 (v : Word) : InI128 (signedValue v) := by
  have h1 := BitVec.le_toInt v
  have h2 := BitVec.toInt_lt (x := v)
  simp only [signedValue, InI128, i128Min, i128Max]
  norm_num at h1 h2
  omega

/-- A number of the range is read back from its pattern: nothing is wrapped (R18). -/
theorem toInt_bits128 {z : Int} (h : InI128 z) : (bits128 z).toInt = z := by
  obtain ⟨h1, h2⟩ := h
  simp only [i128Min, i128Max] at h1 h2
  rw [bits128, BitVec.toInt_ofInt]
  apply Int.bmod_eq_of_le <;> norm_num <;> omega

@[simp] theorem signedValue_bits128 {z : Int} (h : InI128 z) : signedValue (bits128 z) = z := toInt_bits128 h

/-- The magnitude of a word is a `u128`. -/
theorem toNat_magnitude (v : Word) : (magnitude v).toNat = (signedValue v).natAbs := by
  have h := signedValue_inI128 v
  simp only [InI128, i128Min, i128Max] at h
  rw [magnitude, BitVec.toNat_ofNat, Nat.mod_eq_of_lt]
  norm_num
  omega

theorem magnitude_le (v : Word) : (magnitude v).toNat ≤ 170141183460469231731687303715884105728 := by
  have h := signedValue_inI128 v
  simp only [InI128, i128Min, i128Max] at h
  rw [toNat_magnitude]
  omega

theorem signedValue_eq_zero_iff (v : Word) : signedValue v = 0 ↔ v = 0#128 := by
  constructor
  · intro h
    apply BitVec.eq_of_toInt_eq
    simpa [signedValue] using h
  · rintro rfl
    rfl

theorem magnitude_pos {v : Word} (h : signedValue v ≠ 0) : 0 < (magnitude v).toNat := by
  rw [toNat_magnitude]
  omega

@[simp] theorem isNegative_iff (v : Word) : isNegative v = true ↔ signedValue v < 0 := by
  simp [isNegative]

/-- A word is its magnitude with its sign. -/
theorem signedValue_eq_magnitude (v : Word) :
    signedValue v = if isNegative v then -((magnitude v).toNat : Int) else ((magnitude v).toNat : Int) := by
  rw [toNat_magnitude]
  by_cases h : signedValue v < 0
  · rw [if_pos ((isNegative_iff v).mpr h)]
    omega
  · rw [if_neg fun hn => h ((isNegative_iff v).mp hn)]
    omega

/-- `bits_128` is one-to-one on the range. -/
theorem bits128_injective {z z' : Int} (h : InI128 z) (h' : InI128 z') (e : bits128 z = bits128 z') : z = z' := by
  rw [← toInt_bits128 h, ← toInt_bits128 h', e]

@[simp] theorem tenPower_eq (n : Nat) : tenPower n = (10 : Int) ^ n := by simp [tenPower]

theorem scaledBy_eq (x : Word) (n : Nat) : scaledBy x n = signedValue x * (10 : Int) ^ n := by simp [scaledBy]

/-- Both adjusted coefficients are the coefficient times the power that brings its scale up to the larger one (R104). -/
theorem adjustedFirst_eq (c : Word) (s1 s2 : Nat) :
    adjustedFirst c s1 s2 = signedValue c * (10 : Int) ^ (max s1 s2 - s1) := by
  unfold adjustedFirst
  split_ifs with h
  · rw [scaledBy_eq, max_eq_right h.le]
  · rw [max_eq_left (by omega)]
    simp

theorem adjustedSecond_eq (c : Word) (s1 s2 : Nat) :
    adjustedSecond c s1 s2 = signedValue c * (10 : Int) ^ (max s1 s2 - s2) := by
  unfold adjustedSecond
  split_ifs with h
  · rw [scaledBy_eq, max_eq_left h.le]
  · rw [max_eq_right (by omega)]
    simp

/-- At most one side is multiplied, so at least one side is in range (R105). -/
theorem adjusted_one_inI128 (c1 c2 : Word) (s1 s2 : Nat) :
    InI128 (adjustedFirst c1 s1 s2) ∨ InI128 (adjustedSecond c2 s1 s2) := by
  unfold adjustedFirst adjustedSecond
  rcases Nat.lt_or_ge s1 s2 with h | h
  · rw [if_neg (by omega : ¬s2 < s1)]
    exact .inr (signedValue_inI128 c2)
  · rw [if_neg (by omega : ¬s1 < s2)]
    exact .inl (signedValue_inI128 c1)

theorem toNat_sharedScale {s1 s2 : Nat} (h1 : s1 ≤ 18) (h2 : s2 ≤ 18) : (sharedScale s1 s2).toNat = max s1 s2 := by
  rw [sharedScale, BitVec.toNat_ofNat, Nat.mod_eq_of_lt]
  have := max_le h1 h2
  omega

end Sys2Proof.Machine
end

