-- ==== Sys2Proof/Laws/Arithmetic.lean ====
section
/-! SUPPORT. Half words and digits of the wide units (41_wide_arithmetic.md R121, R124, R125), and floor division of
integers from magnitudes (R130) and from a truncating pair (42_floor_div_mod.md R150). -/

namespace Sys2Proof.Machine

/-! ### Half words -/

@[simp] theorem toNat_lowHalf (v : Word) : (lowHalf v).toNat = v.toNat % 2 ^ 64 := by
  simp only [lowHalf, BitVec.toNat_setWidth, BitVec.extractLsb'_toNat, Nat.shiftRight_zero]
  omega

@[simp] theorem toNat_highHalf (v : Word) : (highHalf v).toNat = v.toNat / 2 ^ 64 := by
  simp only [highHalf, BitVec.toNat_setWidth, BitVec.extractLsb'_toNat, Nat.shiftRight_eq_div_pow]
  have := v.isLt
  omega

theorem lowHalf_lt (v : Word) : (lowHalf v).toNat < 2 ^ 64 := by
  rw [toNat_lowHalf]
  omega

theorem highHalf_lt (v : Word) : (highHalf v).toNat < 2 ^ 64 := by
  rw [toNat_highHalf]
  have := v.isLt
  omega

/-- A word is its two halves. -/
theorem toNat_eq_halves (v : Word) : v.toNat = (highHalf v).toNat * 2 ^ 64 + (lowHalf v).toNat := by
  rw [toNat_highHalf, toNat_lowHalf]
  omega

/-- Two digits below 2^64 join without loss. -/
theorem toNat_joinHalves {h l : Word} (hh : h.toNat < 2 ^ 64) (hl : l.toNat < 2 ^ 64) :
    (joinHalves h l).toNat = h.toNat * 2 ^ 64 + l.toNat := by
  simp only [joinHalves, BitVec.toNat_append, BitVec.extractLsb'_toNat, Nat.shiftRight_zero]
  rw [Nat.mod_eq_of_lt hh, Nat.mod_eq_of_lt hl, ← Nat.shiftLeft_add_eq_or_of_lt hl, Nat.shiftLeft_eq]

/-- A digit is shifted in without loss while the partial remainder is below 2^64. -/
theorem toNat_shiftIn {r u : Word} (hr : r.toNat < 2 ^ 64) (hu : u.toNat < 2 ^ 64) :
    (shiftIn r u).toNat = r.toNat * 2 ^ 64 + u.toNat := by
  simp only [shiftIn, BitVec.toNat_add, BitVec.toNat_shiftLeft, Nat.shiftLeft_eq]
  omega

theorem wideValue_lt (hi lo : Word) : wideValue hi lo < 2 ^ 256 := by
  have h1 := hi.isLt
  have h2 := lo.isLt
  unfold wideValue
  omega

/-! ### Floor division -/

/-- The floor pair is the one pair with this quotient equation and a remainder on the divisor's side of zero. -/
theorem fdiv_eq_of_remainder {n y q r : Int} (h : n = q * y + r)
    (hr : 0 < y ∧ 0 ≤ r ∧ r < y ∨ y < 0 ∧ y < r ∧ r ≤ 0) : n.fdiv y = q := by
  subst h
  rcases hr with ⟨hy, h0, h1⟩ | ⟨hy, h1, h0⟩
  · rw [Int.fdiv_eq_ediv_of_nonneg _ hy.le, add_comm, Int.add_mul_ediv_right _ _ hy.ne',
      Int.ediv_eq_zero_of_lt h0 h1, zero_add]
  · rw [← Int.neg_fdiv_neg, Int.fdiv_eq_ediv_of_nonneg _ (by omega),
      show -(q * y + r) = -r + q * -y by ring, Int.add_mul_ediv_right _ _ (by omega),
      Int.ediv_eq_zero_of_lt (by omega) (by omega), zero_add]

/-- The adjustment of R130 gives the floor pair of the signed dividend and divisor. -/
theorem floorAdjust_eq (negN negY : Bool) {qu ru ay : Int} (h0 : 0 ≤ ru) (h1 : ru < ay) :
    let n := if negN then -(qu * ay + ru) else qu * ay + ru
    let y := if negY then -ay else ay
    floorAdjust negN negY qu ru ay = ⟨n.fdiv y, n - n.fdiv y * y⟩ := by
  have close : ∀ {n y : Int} {fp : FloorPair}, n = fp.q * y + fp.r →
      (0 < y ∧ 0 ≤ fp.r ∧ fp.r < y ∨ y < 0 ∧ y < fp.r ∧ fp.r ≤ 0) → fp = ⟨n.fdiv y, n - n.fdiv y * y⟩ := by
    intro n y fp h hr
    rw [fdiv_eq_of_remainder h hr]
    obtain ⟨q, r⟩ := fp
    simp only [FloorPair.mk.injEq, true_and]
    simp only at h
    omega
  intro n y
  apply close <;> cases negN <;> cases negY <;>
    simp only [floorAdjust, n, y, if_true, if_false, reduceCtorEq, Bool.false_eq_true]
  all_goals first
    | (split_ifs with hz <;> simp only [hz] <;> first | ring1 | omega)
    | omega
    | ring1

/-- The converter on the truncating pair gives the floor pair. -/
theorem floorPairOf_eq {x y : Int} (hy : y ≠ 0) : floorPairOf x y = ⟨x.fdiv y, x - x.fdiv y * y⟩ := by
  have hrem : x - x.tdiv y * y = x.tmod y := by
    rw [Int.tmod_def, mul_comm]
  have hlt : (x.tmod y).natAbs < y.natAbs := by
    rw [Int.natAbs_tmod]
    exact Nat.mod_lt _ (Int.natAbs_pos.mpr hy)
  have hx : x = x.tdiv y * y + x.tmod y := by
    rw [← hrem]
    ring
  unfold floorPairOf floorConvert
  rw [hrem]
  generalize x.tmod y = r at hlt hx ⊢
  generalize x.tdiv y = q at hx ⊢
  split_ifs with h
  · obtain ⟨h0, hs⟩ := h
    have hq : x.fdiv y = q - 1 := by
      refine fdiv_eq_of_remainder (r := r + y) (by rw [hx]; ring) ?_
      rcases lt_trichotomy r 0 with hr | hr | hr <;> rcases lt_trichotomy y 0 with h' | h' | h' <;>
        simp_all [Int.sign_eq_neg_one_of_neg, Int.sign_eq_one_of_pos] <;> omega
    rw [hq]
    simp only [FloorPair.mk.injEq, true_and]
    rw [hx]
    ring
  · have hq : x.fdiv y = q := by
      refine fdiv_eq_of_remainder (r := r) hx ?_
      rcases lt_trichotomy r 0 with hr | hr | hr <;> rcases lt_trichotomy y 0 with h' | h' | h' <;>
        simp_all [Int.sign_eq_neg_one_of_neg, Int.sign_eq_one_of_pos] <;> omega
    rw [hq]
    simp only [FloorPair.mk.injEq, true_and]
    omega

end Sys2Proof.Machine
end

