-- ==== Sys2Proof/Laws/Encoding.lean ====
section
/-! SUPPORT. A command word and its five fields (30_encoding.md R72): a word is its fields, a packed word has the fields it
was packed from, and a mask acts field by field. -/

namespace Sys2Proof

open BitVec

/-! ### The fields of a packed word -/

/-- Above the opcode, a slice of a packed word is a slice of the four upper fields. -/
theorem extractLsb'_packWord {start len : Nat} (op : BitVec 8) (m p p2 : Nat) (h : 8 ≤ start) :
    (packWord op m p p2).extractLsb' start len =
      (BitVec.ofNat 8 p2 ++ BitVec.ofNat 8 p ++ 0#4 ++ BitVec.ofNat 4 m).extractLsb' (start - 8) len :=
  extractLsb'_append_eq_of_le h

@[simp] theorem opField_packWord (op : BitVec 8) (m p p2 : Nat) : opField (packWord op m p p2) = op :=
  extractLsb'_append_eq_right (a := BitVec.ofNat 8 p2 ++ BitVec.ofNat 8 p ++ 0#4 ++ BitVec.ofNat 4 m)

@[simp] theorem modeField_packWord (op : BitVec 8) (m p p2 : Nat) :
    modeField (packWord op m p p2) = BitVec.ofNat 4 m := by
  rw [modeField, extractLsb'_packWord _ _ _ _ (by decide), extractLsb'_append_eq_of_add_le (by decide)]
  simp

@[simp] theorem rsvField_packWord (op : BitVec 8) (m p p2 : Nat) : rsvField (packWord op m p p2) = 0#4 := by
  rw [rsvField, extractLsb'_packWord _ _ _ _ (by decide), extractLsb'_append_eq_of_le (by decide),
    extractLsb'_append_eq_of_add_le (by decide)]
  simp

@[simp] theorem pField_packWord (op : BitVec 8) (m p p2 : Nat) :
    pField (packWord op m p p2) = BitVec.ofNat 8 p := by
  rw [pField, extractLsb'_packWord _ _ _ _ (by decide), extractLsb'_append_eq_of_le (by decide),
    extractLsb'_append_eq_of_le (by decide), extractLsb'_append_eq_of_add_le (by decide)]
  simp

@[simp] theorem p2Field_packWord (op : BitVec 8) (m p p2 : Nat) :
    p2Field (packWord op m p p2) = BitVec.ofNat 8 p2 := by
  rw [p2Field, extractLsb'_packWord _ _ _ _ (by decide), extractLsb'_append_eq_of_le (by decide),
    extractLsb'_append_eq_of_le (by decide), extractLsb'_append_eq_of_le (by decide)]
  simp

/-! ### A word is its fields -/

theorem word_eq_fields (w : CmdWord) :
    w = (p2Field w ++ pField w ++ rsvField w ++ modeField w ++ opField w : BitVec (8 + 8 + 4 + 4 + 8)) := by
  simp only [p2Field, pField, rsvField, modeField, opField]
  rw [extractLsb'_append_extractLsb'_eq_extractLsb' (start₁ := 16) (len₁ := 8) rfl,
    extractLsb'_append_extractLsb'_eq_extractLsb' (start₁ := 12) (len₁ := 4) rfl,
    extractLsb'_append_extractLsb'_eq_extractLsb' (start₁ := 8) (len₁ := 4) rfl,
    extractLsb'_append_extractLsb'_eq_extractLsb' (start₁ := 0) (len₁ := 8) rfl]
  exact (extractLsb'_eq_self (x := w)).symm

/-- Two words are equal when their fields are. -/
theorem word_ext {w w' : CmdWord} (h2 : p2Field w = p2Field w') (h1 : pField w = pField w')
    (hr : rsvField w = rsvField w') (hm : modeField w = modeField w') (ho : opField w = opField w') : w = w' := by
  rw [word_eq_fields w, word_eq_fields w', h2, h1, hr, hm, ho]

theorem word_ext_iff {w w' : CmdWord} :
    w = w' ↔ p2Field w = p2Field w' ∧ pField w = pField w' ∧ rsvField w = rsvField w' ∧ modeField w = modeField w' ∧
      opField w = opField w' :=
  ⟨by rintro rfl; simp, fun ⟨h2, h1, hr, hm, ho⟩ => word_ext h2 h1 hr hm ho⟩

@[simp] theorem opField_and (w v : CmdWord) : opField (w &&& v) = opField w &&& opField v := extractLsb'_and

@[simp] theorem modeField_and (w v : CmdWord) : modeField (w &&& v) = modeField w &&& modeField v := extractLsb'_and

@[simp] theorem rsvField_and (w v : CmdWord) : rsvField (w &&& v) = rsvField w &&& rsvField v := extractLsb'_and

@[simp] theorem pField_and (w v : CmdWord) : pField (w &&& v) = pField w &&& pField v := extractLsb'_and

@[simp] theorem p2Field_and (w v : CmdWord) : p2Field (w &&& v) = p2Field w &&& p2Field v := extractLsb'_and

/-- The row test of R80 step 2, field by field: `rsv` is zero, `op` is the row's, and a field the row does not use is
zero. -/
theorem rowTest_iff (o : Opcode) (w : CmdWord) :
    w &&& o.mask = o.matchWord ↔
      opField w = o.number ∧ rsvField w = 0#4 ∧ (o.takesMode = false → modeField w = 0#4) ∧
        (o ∈ [Opcode.dmdf, .divmodf, .divr, .parse] → pField w = 0#8) ∧
        (o ∉ [Opcode.adj, .cadj] → p2Field w = 0#8) := by
  have ones8 : ∀ x : BitVec 8, x &&& 255#8 = x := fun x => and_allOnes (x := x)
  have ones4 : ∀ x : BitVec 4, x &&& 15#4 = x := fun x => and_allOnes (x := x)
  have zero8 : ∀ x : BitVec 8, x &&& 0#8 = 0#8 := fun x => and_zero
  have zero4 : ∀ x : BitVec 4, x &&& 0#4 = 0#4 := fun x => and_zero
  rw [word_ext_iff]
  simp only [p2Field_and, pField_and, rsvField_and, modeField_and, opField_and]
  cases o <;>
    simp [Opcode.mask, Opcode.matchWord, Opcode.number, Opcode.takesMode, p2Field, pField, rsvField, modeField, opField,
      ones8, ones4, zero8, zero4] <;> tauto

/-! ### Decoding (R80) -/

theorem opcodeOf_number (o : Opcode) : opcodeOf o.number = some o := by
  cases o <;> decide

/-- Step 1 of R80 finds a row exactly when `op` is that row's. -/
theorem opcodeOf_eq_some_iff (op : BitVec 8) (o : Opcode) : opcodeOf op = some o ↔ op = o.number := by
  constructor
  · intro h
    have := List.find?_some h
    simpa using (beq_iff_eq.mp this).symm
  · rintro rfl
    exact opcodeOf_number o

/-- A word decodes to a command exactly when it passes the test of some row and has a mode where the row takes one; the
command is then that row's with the word's fields. -/
theorem decode_eq_command_iff (w : CmdWord) (i : Instr) :
    decode w = .command i ↔
      ∃ o m, w &&& o.mask = o.matchWord ∧ modeOf o w = some m ∧
        i = commandOf o (pField w).toNat (p2Field w).toNat m := by
  constructor
  · intro h
    unfold decode at h
    cases ho : opcodeOf (opField w) with
    | none => simp [ho] at h
    | some o =>
      simp only [ho] at h
      split_ifs at h with hm
      cases hmode : modeOf o w with
      | none => simp [hmode] at h
      | some m =>
        simp only [hmode, Decoded.command.injEq] at h
        exact ⟨o, m, hm, hmode, h.symm⟩
  · rintro ⟨o, m, hm, hmode, rfl⟩
    have ho := (opcodeOf_eq_some_iff (opField w) o).mpr ((rowTest_iff o w).mp hm).1
    simp [decode, ho, hm, hmode]

/-- A word is illegal exactly when it decodes to no command. -/
theorem decode_illegal_iff (w : CmdWord) : (∃ why, decode w = .illegal why) ↔ ∀ i, decode w ≠ .command i := by
  cases decode w <;> simp

theorem ofNumber_number (m : RoundingMode) : RoundingMode.ofNumber m.number = some m := by
  cases m <;> rfl

/-- The modes are the numbers 0 to 8 (R76). -/
theorem ofNumber_eq_some_iff (n : Nat) (m : RoundingMode) : RoundingMode.ofNumber n = some m ↔ n = m.number := by
  constructor
  · intro h
    unfold RoundingMode.ofNumber at h
    split at h <;> simp_all [RoundingMode.number]
    all_goals subst h; rfl
  · rintro rfl
    exact ofNumber_number m

theorem number_lt (m : RoundingMode) : m.number < 9 := by
  cases m <;> decide

/-- A command with its row: the word `encode` gives passes the row's test. -/
theorem encode_rowTest (i : Instr) : encode i &&& i.opcode.mask = i.opcode.matchWord := by
  rw [rowTest_iff]
  cases i <;> simp [encode, Instr.opcode, Opcode.number, Opcode.takesMode]

end Sys2Proof
end

