-- ==== Sys2Proof/Laws/Memory.lean ====
section
/-! SUPPORT. The text buffer: what a read after a write gives, that a write keeps the canonical form and the range of
addresses, and what `readText` gives (20_memory.md R50, R52, R62). -/

namespace Sys2Proof.Machine

@[simp] theorem Memory.read_nil (i : Nat) : Memory.read [] i = none := rfl

/-- The basic law: the written byte is read back, every other address reads as before (R58). -/
theorem Memory.read_write (m : Memory) (i j : Nat) (b : Byte) :
    Memory.read (Memory.write m i b) j = if j = i then some b else Memory.read m j := by
  induction m with
  | nil => simp [Memory.write, Memory.read, Memory.unlisted]
  | cons c rest ih =>
    obtain ⟨k, x⟩ := c
    simp only [Memory.write]
    split_ifs with hlt heq <;> simp only [Memory.read, ih] <;> split_ifs <;> simp_all

@[simp] theorem Memory.read_write_same (m : Memory) (i : Nat) (b : Byte) :
    Memory.read (Memory.write m i b) i = some b := by simp [Memory.read_write]

theorem Memory.read_write_ne (m : Memory) {i j : Nat} (b : Byte) (h : j ≠ i) :
    Memory.read (Memory.write m i b) j = Memory.read m j := by simp [Memory.read_write, h]

/-- A written buffer lists the written cell and cells of the buffer before, no other. -/
theorem Memory.mem_write {m : Memory} {i : Nat} {b : Byte} {c : Host.Cell} (h : c ∈ Memory.write m i b) :
    c = (i, b) ∨ c ∈ m := by
  induction m with
  | nil => simpa [Memory.write] using h
  | cons d rest ih =>
    obtain ⟨k, x⟩ := d
    simp only [Memory.write] at h
    split_ifs at h with hlt heq
    · simpa using h
    · rcases List.mem_cons.mp h with h | h
      · exact .inl h
      · exact .inr (List.mem_cons_of_mem _ h)
    · rcases List.mem_cons.mp h with h | h
      · exact .inr (h ▸ List.mem_cons_self)
      · exact (ih h).imp_right (List.mem_cons_of_mem _)

/-- A write keeps the addresses strictly rising. -/
theorem Memory.write_wf {m : Memory} (i : Nat) (b : Byte) (h : Memory.wf m) : Memory.wf (Memory.write m i b) := by
  induction m with
  | nil => simp [Memory.write, Memory.wf]
  | cons d rest ih =>
    obtain ⟨k, x⟩ := d
    have hd := List.pairwise_cons.mp h
    simp only [Memory.write]
    split_ifs with hlt heq
    · refine List.pairwise_cons.mpr ⟨fun c hc => ?_, h⟩
      rcases List.mem_cons.mp hc with rfl | hc
      · exact hlt
      · exact hlt.trans (hd.1 c hc)
    · exact heq ▸ List.pairwise_cons.mpr ⟨hd.1, hd.2⟩
    · refine List.pairwise_cons.mpr ⟨fun c hc => ?_, ih hd.2⟩
      rcases Memory.mem_write hc with rfl | hc
      · show k < i
        omega
      · exact hd.1 c hc

/-- A write below a bound keeps all addresses below it. -/
theorem Memory.write_below {m : Memory} {n i : Nat} (b : Byte) (hi : i < n) (h : ∀ c ∈ m, c.1 < n) :
    ∀ c ∈ Memory.write m i b, c.1 < n := by
  intro c hc
  rcases Memory.mem_write hc with rfl | hc
  · exact hi
  · exact h c hc

@[simp] theorem Memory.reset_wf : Memory.wf State.reset.txt := List.Pairwise.nil

/-- `readText` gives a text if and only if every byte of the range has been written, and then these bytes in order. -/
theorem readText_ok_iff (m : Memory) (n i : Nat) (t : List Byte) :
    readText m n i = .ok t ↔ t.length = n ∧ ∀ j, (h : j < t.length) → Memory.read m (i + j) = some t[j] := by
  induction n generalizing i t with
  | zero =>
    simp only [readText, Except.ok.injEq]
    constructor
    · rintro rfl
      simp
    · rintro ⟨h, -⟩
      exact (List.length_eq_zero_iff.mp h).symm
  | succ n ih =>
    simp only [readText]
    cases t with
    | nil =>
      constructor
      · intro h
        split at h
        · simp at h
        · split at h <;> simp at h
      · rintro ⟨h, -⟩
        simp at h
    | cons b t =>
      cases hb : Memory.read m i with
      | none =>
        simp only [reduceCtorEq, false_iff, not_and]
        intro _ h
        have := h 0 (by simp)
        simp [hb] at this
      | some b' =>
        have key := ih (i + 1) t
        cases hr : readText m n (i + 1) with
        | ok t' =>
          rw [hr, Except.ok.injEq] at key
          simp only [Except.ok.injEq, List.cons.injEq, key, List.length_cons, Nat.add_right_cancel_iff]
          constructor
          · rintro ⟨rfl, hl, h⟩
            refine ⟨hl, fun j hj => ?_⟩
            cases j with
            | zero => simpa using hb
            | succ j =>
              rw [show i + (j + 1) = i + 1 + j by omega]
              exact h j (by simpa using hj)
          · rintro ⟨hl, h⟩
            refine ⟨?_, hl, fun j hj => ?_⟩
            · simpa [hb] using h 0 (by simp)
            · rw [show i + 1 + j = i + (j + 1) by omega]
              exact h (j + 1) (by simpa using hj)
        | error e =>
          rw [hr] at key
          simp only [reduceCtorEq, false_iff, not_and, List.length_cons, Nat.add_right_cancel_iff] at key ⊢
          intro hl h
          refine key hl fun j hj => ?_
          rw [show i + 1 + j = i + (j + 1) by omega]
          exact h (j + 1) (by simpa using hj)

/-- `readText` stops at an address if and only if it is the first of the range that holds no value. -/
theorem readText_error_iff (m : Memory) (n i k : Nat) :
    readText m n i = .error k ↔
      i ≤ k ∧ k < i + n ∧ Memory.read m k = none ∧ ∀ j, i ≤ j → j < k → Memory.read m j ≠ none := by
  induction n generalizing i with
  | zero =>
    simp only [readText, reduceCtorEq, false_iff]
    omega
  | succ n ih =>
    simp only [readText]
    cases hb : Memory.read m i with
    | none =>
      simp only [Except.error.injEq]
      constructor
      · rintro rfl
        exact ⟨le_refl _, by omega, hb, fun j h1 h2 => by omega⟩
      · rintro ⟨h1, -, -, h4⟩
        by_contra hne
        exact h4 i (le_refl _) (by omega) hb
    | some b =>
      have key := ih (i + 1)
      have step : (i ≤ k ∧ k < i + (n + 1) ∧ Memory.read m k = none ∧ ∀ j, i ≤ j → j < k → Memory.read m j ≠ none) ↔
          (i + 1 ≤ k ∧ k < i + 1 + n ∧ Memory.read m k = none ∧ ∀ j, i + 1 ≤ j → j < k → Memory.read m j ≠ none) := by
        constructor
        · rintro ⟨h1, h2, h3, h4⟩
          have : i ≠ k := by
            rintro rfl
            simp [hb] at h3
          exact ⟨by omega, by omega, h3, fun j hj => h4 j (by omega)⟩
        · rintro ⟨h1, h2, h3, h4⟩
          refine ⟨by omega, by omega, h3, fun j hj hk => ?_⟩
          rcases Nat.eq_or_lt_of_le hj with rfl | hj
          · simp [hb]
          · exact h4 j hj hk
      rw [step, ← key]
      cases readText m n (i + 1) <;> simp

/-- Two buffers that agree on the range give the same text, or stop at the same address. -/
theorem readText_congr {m m' : Memory} (n i : Nat)
    (h : ∀ j, i ≤ j → j < i + n → Memory.read m j = Memory.read m' j) : readText m n i = readText m' n i := by
  induction n generalizing i with
  | zero => rfl
  | succ n ih =>
    simp only [readText]
    rw [h i (le_refl _) (by omega), ih (i + 1) fun j h1 h2 => h j (by omega) (by omega)]

end Sys2Proof.Machine
end

