-- ==== Sys2Proof/Laws/State.lean ====
section
/-! SUPPORT. One lemma per field of `State` per update of the shared operations, true by unfolding, so that no later proof
unfolds a record update. The named ways a command ends are rewritten to `complete` first. -/

namespace Sys2Proof.Machine

/-! ### The named completions are `complete` -/

@[simp] theorem presentOne_eq (v0 : Word) (s : State) :
    presentOne v0 s = complete (some v0) none none false false none s := rfl

@[simp] theorem presentTwo_eq (v0 v1 : Word) (s : State) :
    presentTwo v0 v1 s = complete (some v0) (some v1) none false false none s := rfl

@[simp] theorem presentPairAtScale_eq (v0 v1 : Word) (scale : Byte) (s : State) :
    presentPairAtScale v0 v1 scale s = complete (some v0) (some v1) (some scale) false false none s := rfl

@[simp] theorem presentParsed_eq (v0 : Word) (scale : Byte) (s : State) :
    presentParsed v0 scale s = complete (some v0) none (some scale) false false none s := rfl

@[simp] theorem absent_eq (s : State) : absent s = complete none none none true false none s := rfl

@[simp] theorem parseFailed_eq (k : ParseError) (s : State) :
    parseFailed k s = complete none none none false false (some k) s := rfl

@[simp] theorem writeReadOnlyReg_eq (r : ReadOnlyReg) (v : Word) (s : State) : writeReadOnlyReg r v s = s := rfl

/-! ### STATUS, stored fields -/

@[simp] theorem Status.complete_ovf (st : Status) (ovf ovfb : Bool) (perr : Option ParseError) :
    (st.complete ovf ovfb perr).ovf = ovf := rfl

@[simp] theorem Status.complete_ovfb (st : Status) (ovf ovfb : Bool) (perr : Option ParseError) :
    (st.complete ovf ovfb perr).ovfb = ovfb := rfl

@[simp] theorem Status.complete_perr (st : Status) (ovf ovfb : Bool) (perr : Option ParseError) :
    (st.complete ovf ovfb perr).perr = perr := rfl

@[simp] theorem Status.complete_fault (st : Status) (ovf ovfb : Bool) (perr : Option ParseError) :
    (st.complete ovf ovfb perr).fault = st.fault := rfl

@[simp] theorem Status.complete_complete (st : Status) (o o' p p' : Bool) (k k' : Option ParseError) :
    (st.complete o p k).complete o' p' k' = st.complete o' p' k' := rfl

@[simp] theorem Status.faulted_fault (c : FaultCause) : (Status.faulted c).fault = some c := rfl

@[simp] theorem Status.faulted_ovf (c : FaultCause) : (Status.faulted c).ovf = false := rfl

@[simp] theorem Status.faulted_ovfb (c : FaultCause) : (Status.faulted c).ovfb = false := rfl

@[simp] theorem Status.faulted_perr (c : FaultCause) : (Status.faulted c).perr = none := rfl

/-! ### `complete` -/

@[simp] theorem complete_a (r0 r1 : Option Word) (rsc : Option Byte) (ovf ovfb : Bool) (perr : Option ParseError) (s : State) :
    (complete r0 r1 rsc ovf ovfb perr s).a = s.a := rfl

@[simp] theorem complete_b (r0 r1 : Option Word) (rsc : Option Byte) (ovf ovfb : Bool) (perr : Option ParseError) (s : State) :
    (complete r0 r1 rsc ovf ovfb perr s).b = s.b := rfl

@[simp] theorem complete_c (r0 r1 : Option Word) (rsc : Option Byte) (ovf ovfb : Bool) (perr : Option ParseError) (s : State) :
    (complete r0 r1 rsc ovf ovfb perr s).c = s.c := rfl

@[simp] theorem complete_r0 (r0 r1 : Option Word) (rsc : Option Byte) (ovf ovfb : Bool) (perr : Option ParseError) (s : State) :
    (complete r0 r1 rsc ovf ovfb perr s).r0 = r0 := rfl

@[simp] theorem complete_r1 (r0 r1 : Option Word) (rsc : Option Byte) (ovf ovfb : Bool) (perr : Option ParseError) (s : State) :
    (complete r0 r1 rsc ovf ovfb perr s).r1 = r1 := rfl

@[simp] theorem complete_rsc (r0 r1 : Option Word) (rsc : Option Byte) (ovf ovfb : Bool) (perr : Option ParseError) (s : State) :
    (complete r0 r1 rsc ovf ovfb perr s).rsc = rsc := rfl

@[simp] theorem complete_status (r0 r1 : Option Word) (rsc : Option Byte) (ovf ovfb : Bool) (perr : Option ParseError) (s : State) :
    (complete r0 r1 rsc ovf ovfb perr s).status = s.status.complete ovf ovfb perr := rfl

@[simp] theorem complete_tlen (r0 r1 : Option Word) (rsc : Option Byte) (ovf ovfb : Bool) (perr : Option ParseError) (s : State) :
    (complete r0 r1 rsc ovf ovfb perr s).tlen = s.tlen := rfl

@[simp] theorem complete_txt (r0 r1 : Option Word) (rsc : Option Byte) (ovf ovfb : Bool) (perr : Option ParseError) (s : State) :
    (complete r0 r1 rsc ovf ovfb perr s).txt = s.txt := rfl

@[simp] theorem complete_config (r0 r1 : Option Word) (rsc : Option Byte) (ovf ovfb : Bool) (perr : Option ParseError) (s : State) :
    (complete r0 r1 rsc ovf ovfb perr s).config = s.config := rfl

@[simp] theorem complete_script (r0 r1 : Option Word) (rsc : Option Byte) (ovf ovfb : Bool) (perr : Option ParseError) (s : State) :
    (complete r0 r1 rsc ovf ovfb perr s).script = s.script := rfl

@[simp] theorem complete_hostReads (r0 r1 : Option Word) (rsc : Option Byte) (ovf ovfb : Bool) (perr : Option ParseError) (s : State) :
    (complete r0 r1 rsc ovf ovfb perr s).hostReads = s.hostReads := rfl

/-! ### `raiseFault` -/

@[simp] theorem raiseFault_a (cause : FaultCause) (s : State) : (raiseFault cause s).a = s.a := rfl

@[simp] theorem raiseFault_b (cause : FaultCause) (s : State) : (raiseFault cause s).b = s.b := rfl

@[simp] theorem raiseFault_c (cause : FaultCause) (s : State) : (raiseFault cause s).c = s.c := rfl

@[simp] theorem raiseFault_r0 (cause : FaultCause) (s : State) : (raiseFault cause s).r0 = none := rfl

@[simp] theorem raiseFault_r1 (cause : FaultCause) (s : State) : (raiseFault cause s).r1 = none := rfl

@[simp] theorem raiseFault_rsc (cause : FaultCause) (s : State) : (raiseFault cause s).rsc = none := rfl

@[simp] theorem raiseFault_status (cause : FaultCause) (s : State) :
    (raiseFault cause s).status = Status.faulted cause := rfl

@[simp] theorem raiseFault_tlen (cause : FaultCause) (s : State) : (raiseFault cause s).tlen = s.tlen := rfl

@[simp] theorem raiseFault_txt (cause : FaultCause) (s : State) : (raiseFault cause s).txt = s.txt := rfl

@[simp] theorem raiseFault_config (cause : FaultCause) (s : State) : (raiseFault cause s).config = s.config := rfl

@[simp] theorem raiseFault_script (cause : FaultCause) (s : State) : (raiseFault cause s).script = s.script := rfl

@[simp] theorem raiseFault_hostReads (cause : FaultCause) (s : State) :
    (raiseFault cause s).hostReads = s.hostReads := rfl

/-! ### `resetBlock` -/

@[simp] theorem resetBlock_a (s : State) : (resetBlock s).a = 0#128 := rfl

@[simp] theorem resetBlock_b (s : State) : (resetBlock s).b = 0#128 := rfl

@[simp] theorem resetBlock_c (s : State) : (resetBlock s).c = 0#128 := rfl

@[simp] theorem resetBlock_r0 (s : State) : (resetBlock s).r0 = none := rfl

@[simp] theorem resetBlock_r1 (s : State) : (resetBlock s).r1 = none := rfl

@[simp] theorem resetBlock_rsc (s : State) : (resetBlock s).rsc = none := rfl

@[simp] theorem resetBlock_status (s : State) : (resetBlock s).status = Status.reset := rfl

@[simp] theorem resetBlock_tlen (s : State) : (resetBlock s).tlen = 0#16 := rfl

@[simp] theorem resetBlock_txt (s : State) : (resetBlock s).txt = [] := rfl

@[simp] theorem resetBlock_config (s : State) : (resetBlock s).config = s.config := rfl

@[simp] theorem resetBlock_script (s : State) : (resetBlock s).script = s.script := rfl

@[simp] theorem resetBlock_hostReads (s : State) : (resetBlock s).hostReads = s.hostReads := rfl

/-! ### `writeTlenReg` -/

@[simp] theorem writeTlenReg_a (n : BitVec 16) (s : State) : (writeTlenReg n s).a = s.a := rfl

@[simp] theorem writeTlenReg_b (n : BitVec 16) (s : State) : (writeTlenReg n s).b = s.b := rfl

@[simp] theorem writeTlenReg_c (n : BitVec 16) (s : State) : (writeTlenReg n s).c = s.c := rfl

@[simp] theorem writeTlenReg_r0 (n : BitVec 16) (s : State) : (writeTlenReg n s).r0 = s.r0 := rfl

@[simp] theorem writeTlenReg_r1 (n : BitVec 16) (s : State) : (writeTlenReg n s).r1 = s.r1 := rfl

@[simp] theorem writeTlenReg_rsc (n : BitVec 16) (s : State) : (writeTlenReg n s).rsc = s.rsc := rfl

@[simp] theorem writeTlenReg_status (n : BitVec 16) (s : State) : (writeTlenReg n s).status = s.status := rfl

@[simp] theorem writeTlenReg_tlen (n : BitVec 16) (s : State) : (writeTlenReg n s).tlen = n := rfl

@[simp] theorem writeTlenReg_txt (n : BitVec 16) (s : State) : (writeTlenReg n s).txt = s.txt := rfl

@[simp] theorem writeTlenReg_config (n : BitVec 16) (s : State) : (writeTlenReg n s).config = s.config := rfl

@[simp] theorem writeTlenReg_script (n : BitVec 16) (s : State) : (writeTlenReg n s).script = s.script := rfl

@[simp] theorem writeTlenReg_hostReads (n : BitVec 16) (s : State) : (writeTlenReg n s).hostReads = s.hostReads := rfl

/-! ### `writeOperandReg_a` -/

@[simp] theorem writeOperandReg_a_a (v : Word) (s : State) : (writeOperandReg .a v s).a = v := rfl

@[simp] theorem writeOperandReg_a_b (v : Word) (s : State) : (writeOperandReg .a v s).b = s.b := rfl

@[simp] theorem writeOperandReg_a_c (v : Word) (s : State) : (writeOperandReg .a v s).c = s.c := rfl

@[simp] theorem writeOperandReg_a_r0 (v : Word) (s : State) : (writeOperandReg .a v s).r0 = s.r0 := rfl

@[simp] theorem writeOperandReg_a_r1 (v : Word) (s : State) : (writeOperandReg .a v s).r1 = s.r1 := rfl

@[simp] theorem writeOperandReg_a_rsc (v : Word) (s : State) : (writeOperandReg .a v s).rsc = s.rsc := rfl

@[simp] theorem writeOperandReg_a_status (v : Word) (s : State) : (writeOperandReg .a v s).status = s.status := rfl

@[simp] theorem writeOperandReg_a_tlen (v : Word) (s : State) : (writeOperandReg .a v s).tlen = s.tlen := rfl

@[simp] theorem writeOperandReg_a_txt (v : Word) (s : State) : (writeOperandReg .a v s).txt = s.txt := rfl

@[simp] theorem writeOperandReg_a_config (v : Word) (s : State) : (writeOperandReg .a v s).config = s.config := rfl

@[simp] theorem writeOperandReg_a_script (v : Word) (s : State) : (writeOperandReg .a v s).script = s.script := rfl

@[simp] theorem writeOperandReg_a_hostReads (v : Word) (s : State) :
    (writeOperandReg .a v s).hostReads = s.hostReads := rfl

/-! ### `writeOperandReg_b` -/

@[simp] theorem writeOperandReg_b_a (v : Word) (s : State) : (writeOperandReg .b v s).a = s.a := rfl

@[simp] theorem writeOperandReg_b_b (v : Word) (s : State) : (writeOperandReg .b v s).b = v := rfl

@[simp] theorem writeOperandReg_b_c (v : Word) (s : State) : (writeOperandReg .b v s).c = s.c := rfl

@[simp] theorem writeOperandReg_b_r0 (v : Word) (s : State) : (writeOperandReg .b v s).r0 = s.r0 := rfl

@[simp] theorem writeOperandReg_b_r1 (v : Word) (s : State) : (writeOperandReg .b v s).r1 = s.r1 := rfl

@[simp] theorem writeOperandReg_b_rsc (v : Word) (s : State) : (writeOperandReg .b v s).rsc = s.rsc := rfl

@[simp] theorem writeOperandReg_b_status (v : Word) (s : State) : (writeOperandReg .b v s).status = s.status := rfl

@[simp] theorem writeOperandReg_b_tlen (v : Word) (s : State) : (writeOperandReg .b v s).tlen = s.tlen := rfl

@[simp] theorem writeOperandReg_b_txt (v : Word) (s : State) : (writeOperandReg .b v s).txt = s.txt := rfl

@[simp] theorem writeOperandReg_b_config (v : Word) (s : State) : (writeOperandReg .b v s).config = s.config := rfl

@[simp] theorem writeOperandReg_b_script (v : Word) (s : State) : (writeOperandReg .b v s).script = s.script := rfl

@[simp] theorem writeOperandReg_b_hostReads (v : Word) (s : State) :
    (writeOperandReg .b v s).hostReads = s.hostReads := rfl

/-! ### `writeOperandReg_c` -/

@[simp] theorem writeOperandReg_c_a (v : Word) (s : State) : (writeOperandReg .c v s).a = s.a := rfl

@[simp] theorem writeOperandReg_c_b (v : Word) (s : State) : (writeOperandReg .c v s).b = s.b := rfl

@[simp] theorem writeOperandReg_c_c (v : Word) (s : State) : (writeOperandReg .c v s).c = v := rfl

@[simp] theorem writeOperandReg_c_r0 (v : Word) (s : State) : (writeOperandReg .c v s).r0 = s.r0 := rfl

@[simp] theorem writeOperandReg_c_r1 (v : Word) (s : State) : (writeOperandReg .c v s).r1 = s.r1 := rfl

@[simp] theorem writeOperandReg_c_rsc (v : Word) (s : State) : (writeOperandReg .c v s).rsc = s.rsc := rfl

@[simp] theorem writeOperandReg_c_status (v : Word) (s : State) : (writeOperandReg .c v s).status = s.status := rfl

@[simp] theorem writeOperandReg_c_tlen (v : Word) (s : State) : (writeOperandReg .c v s).tlen = s.tlen := rfl

@[simp] theorem writeOperandReg_c_txt (v : Word) (s : State) : (writeOperandReg .c v s).txt = s.txt := rfl

@[simp] theorem writeOperandReg_c_config (v : Word) (s : State) : (writeOperandReg .c v s).config = s.config := rfl

@[simp] theorem writeOperandReg_c_script (v : Word) (s : State) : (writeOperandReg .c v s).script = s.script := rfl

@[simp] theorem writeOperandReg_c_hostReads (v : Word) (s : State) :
    (writeOperandReg .c v s).hostReads = s.hostReads := rfl

/-! ### `hostTakes` -/

@[simp] theorem hostTakes_a (v : Word) (s : State) : (hostTakes v s).a = s.a := rfl

@[simp] theorem hostTakes_b (v : Word) (s : State) : (hostTakes v s).b = s.b := rfl

@[simp] theorem hostTakes_c (v : Word) (s : State) : (hostTakes v s).c = s.c := rfl

@[simp] theorem hostTakes_r0 (v : Word) (s : State) : (hostTakes v s).r0 = s.r0 := rfl

@[simp] theorem hostTakes_r1 (v : Word) (s : State) : (hostTakes v s).r1 = s.r1 := rfl

@[simp] theorem hostTakes_rsc (v : Word) (s : State) : (hostTakes v s).rsc = s.rsc := rfl

@[simp] theorem hostTakes_status (v : Word) (s : State) : (hostTakes v s).status = s.status := rfl

@[simp] theorem hostTakes_tlen (v : Word) (s : State) : (hostTakes v s).tlen = s.tlen := rfl

@[simp] theorem hostTakes_txt (v : Word) (s : State) : (hostTakes v s).txt = s.txt := rfl

@[simp] theorem hostTakes_config (v : Word) (s : State) : (hostTakes v s).config = s.config := rfl

@[simp] theorem hostTakes_script (v : Word) (s : State) : (hostTakes v s).script = s.script := rfl

@[simp] theorem hostTakes_hostReads (v : Word) (s : State) : (hostTakes v s).hostReads = v :: s.hostReads := rfl

/-! ### `skipLines` -/

@[simp] theorem skipLines_a (n : Nat) (s : State) : (skipLines n s).a = s.a := rfl

@[simp] theorem skipLines_b (n : Nat) (s : State) : (skipLines n s).b = s.b := rfl

@[simp] theorem skipLines_c (n : Nat) (s : State) : (skipLines n s).c = s.c := rfl

@[simp] theorem skipLines_r0 (n : Nat) (s : State) : (skipLines n s).r0 = s.r0 := rfl

@[simp] theorem skipLines_r1 (n : Nat) (s : State) : (skipLines n s).r1 = s.r1 := rfl

@[simp] theorem skipLines_rsc (n : Nat) (s : State) : (skipLines n s).rsc = s.rsc := rfl

@[simp] theorem skipLines_status (n : Nat) (s : State) : (skipLines n s).status = s.status := rfl

@[simp] theorem skipLines_tlen (n : Nat) (s : State) : (skipLines n s).tlen = s.tlen := rfl

@[simp] theorem skipLines_txt (n : Nat) (s : State) : (skipLines n s).txt = s.txt := rfl

@[simp] theorem skipLines_config (n : Nat) (s : State) : (skipLines n s).config = s.config := rfl

@[simp] theorem skipLines_script (n : Nat) (s : State) : (skipLines n s).script = s.script.drop n := rfl

@[simp] theorem skipLines_hostReads (n : Nat) (s : State) : (skipLines n s).hostReads = s.hostReads := rfl

end Sys2Proof.Machine
end

