-- ==== Sys2Proof/Laws/Outcomes.lean ====
section
/-! SUPPORT. What a command can do, said once: it takes a fault, or it completes in one of the ways of the table of R26
(10_state.md), or `PARSE` stops at an unwritten byte. Invariants and frames are derived from this, not from the meanings. -/

namespace Sys2Proof.Machine

/-- The ways of the table of R26 in which a command completes: what it writes to the results and to `STATUS[7:0]`. -/
inductive Ending : Option Word → Option Word → Option Byte → Bool → Bool → Option ParseError → Prop where
  | one (v : Word) : Ending (some v) none none false false none
  | two (v w : Word) : Ending (some v) (some w) none false false none
  | atScale (v w : Word) (k : Byte) (h : k.toNat ≤ 18) : Ending (some v) (some w) (some k) false false none
  | firstOver (w : Word) (k : Byte) (h : k.toNat ≤ 18) : Ending none (some w) (some k) true false none
  | secondOver (v : Word) (k : Byte) (h : k.toNat ≤ 18) : Ending (some v) none (some k) false true none
  | absent : Ending none none none true false none
  | parsed (v : Word) (k : Byte) (h : k.toNat ≤ 18) : Ending (some v) none (some k) false false none
  | failed (e : ParseError) : Ending none none none false false (some e)

/-- `t` is `s` after a command that ended: by a fault, or by one of the completions. -/
def EndsAs (s t : State) : Prop :=
  (∃ c, t = raiseFault c s) ∨
    ∃ r0 r1 rsc ovf ovfb perr, Ending r0 r1 rsc ovf ovfb perr ∧ t = complete r0 r1 rsc ovf ovfb perr s

theorem EndsAs.fault (c : FaultCause) (s : State) : EndsAs s (raiseFault c s) := .inl ⟨c, rfl⟩

theorem EndsAs.complete {r0 r1 rsc ovf ovfb perr} (h : Ending r0 r1 rsc ovf ovfb perr) (s : State) :
    EndsAs s (complete r0 r1 rsc ovf ovfb perr s) := .inr ⟨r0, r1, rsc, ovf, ovfb, perr, h, rfl⟩

/-! ### The shared deliveries -/

theorem deliverPair_ends (p : Option FloorPair) (s : State) : EndsAs s (deliverPair p s) := by
  cases p with
  | none => exact .complete .absent s
  | some fp => exact .complete (.two _ _) s

theorem deliverRounded_ends (m : RoundingMode) (p : Option FloorPair) (y : Int) (s : State) :
    EndsAs s (deliverRounded m p y s) := by
  cases p with
  | none => exact .complete .absent s
  | some fp =>
    simp only [deliverRounded]
    split_ifs
    · exact .complete .absent s
    · exact .complete (.one _) s

/-- A parse that succeeds gives a scale of at most 18 (R183). -/
theorem checkCapacity_scale {z : Int} {n : Nat} {c : Int} {k : Nat} (h : checkCapacity z n = .success c k) : k ≤ 18 := by
  unfold checkCapacity at h
  split_ifs at h with hc
  · obtain ⟨-, rfl⟩ := Parsed.success.inj h
    exact hc.1

/-- A parse that succeeds gives a coefficient of the range (R183). -/
theorem checkCapacity_range {z : Int} {n : Nat} {c : Int} {k : Nat} (h : checkCapacity z n = .success c k) :
    InI128 c := by
  unfold checkCapacity at h
  split_ifs at h with hc
  · obtain ⟨rfl, -⟩ := Parsed.success.inj h
    exact hc.2

/-- `valueOf` ends in `checkCapacity` or in kind 4. -/
theorem valueOf_cases (neg : Bool) (m : Nat) (k : Int) :
    valueOf neg m k = .error .scaleExceedsMaximum ∨ ∃ z n, valueOf neg m k = checkCapacity z n := by
  unfold valueOf
  split_ifs
  · exact .inr ⟨_, _, rfl⟩
  · cases scaledMagnitude m k.toNat with
    | none => exact .inl rfl
    | some v => exact .inr ⟨_, _, rfl⟩

theorem valueOf_success {neg : Bool} {m : Nat} {k : Int} {c : Int} {n : Nat} (h : valueOf neg m k = .success c n) :
    n ≤ 18 ∧ InI128 c := by
  rcases valueOf_cases neg m k with he | ⟨z, j, he⟩
  · rw [he] at h
    cases h
  · rw [he] at h
    exact ⟨checkCapacity_scale h, checkCapacity_range h⟩

/-- What a successful parse delivers fits the result registers (R19, R183). -/
theorem parseText_success {t : List Byte} {c : Int} {n : Nat} (h : parseText t = .success c n) : n ≤ 18 ∧ InI128 c := by
  unfold parseText at h
  cases hr : Scan.start.run t with
  | none => simp [hr] at h
  | some sc =>
    rw [hr] at h
    simp only [Scan.finish] at h
    cases hp : sc.at_ <;> rw [hp] at h <;> first | exact valueOf_success h | cases h

theorem deliverParsed_ends (t : List Byte) (s : State) : EndsAs s (deliverParsed (parseText t) s) := by
  cases h : parseText t with
  | success c n =>
    have hn := (parseText_success h).1
    refine .complete (.parsed _ _ ?_) s
    rw [BitVec.toNat_ofNat, Nat.mod_eq_of_lt (by omega)]
    exact hn
  | error e => exact .complete (.failed e) s

theorem checked_ends (c1 c2 : Word) (s1 s2 : Nat) (h1 : s1 ≤ 18) (h2 : s2 ≤ 18) (s : State) :
    EndsAs s (complete (checkedSide (adjustedFirst c1 s1 s2)) (checkedSide (adjustedSecond c2 s1 s2))
      (some (sharedScale s1 s2)) (checkedSide (adjustedFirst c1 s1 s2)).isNone
      (checkedSide (adjustedSecond c2 s1 s2)).isNone none s) := by
  have hk : (sharedScale s1 s2).toNat ≤ 18 := by
    rw [toNat_sharedScale h1 h2]
    exact max_le h1 h2
  have one := adjusted_one_inI128 c1 c2 s1 s2
  unfold checkedSide
  split_ifs with ha hb hb
  · exact .complete (.atScale _ _ _ hk) s
  · exact .complete (.secondOver _ _ hk) s
  · exact .complete (.firstOver _ _ hk) s
  · exact absurd one (by tauto)

/-! ### Every command -/

/-- A command with a next state has ended by a fault or by a completion. -/
theorem exec_ends {i : Instr} {s t : State} (h : exec i s = .next t) : EndsAs s t := by
  cases i with
  | tenpow n =>
    simp only [exec, execTenpow] at h
    split_ifs at h <;> cases h
    · exact .fault _ s
    · exact .complete (.one _) s
  | mulp10 n =>
    simp only [exec, execMulp10] at h
    split_ifs at h <;> cases h
    · exact .fault _ s
    · exact .complete (.one _) s
    · exact .fault _ s
  | cmulp10 n =>
    simp only [exec, execCmulp10] at h
    split_ifs at h <;> cases h
    · exact .fault _ s
    · exact .complete (.one _) s
    · exact .complete .absent s
  | adj s1 s2 =>
    simp only [exec, execAdj] at h
    split at h
    · cases h
      exact .fault _ s
    · rename_i h1
      simp only [maxScale, not_or, Nat.not_lt] at h1
      split at h <;> cases h
      · refine .complete (.atScale _ _ _ ?_) s
        rw [toNat_sharedScale h1.1 h1.2]
        exact max_le h1.1 h1.2
      · exact .fault _ s
  | cadj s1 s2 =>
    simp only [exec, execCadj] at h
    split at h <;> cases h
    · exact .fault _ s
    · rename_i h1
      simp only [maxScale, not_or, Nat.not_lt] at h1
      exact checked_ends s.a s.b s1 s2 h1.1 h1.2 s
  | sdivf p =>
    simp only [exec, execSdivf] at h
    split_ifs at h <;> cases h
    · exact .fault _ s
    · exact .fault _ s
    · exact deliverPair_ends _ s
  | dmdf =>
    simp only [exec, execDmdf] at h
    split_ifs at h <;> cases h
    · exact .fault _ s
    · exact .fault _ s
    · exact deliverPair_ends _ s
  | divmodf =>
    simp only [exec, execDivmodf] at h
    split_ifs at h <;> cases h
    · exact .fault _ s
    · exact .fault _ s
    · exact .complete (.two _ _) s
  | divr m =>
    simp only [exec, execDivr] at h
    split_ifs at h <;> cases h
    · exact .fault _ s
    · exact .fault _ s
    · exact .complete (.one _) s
  | sdivr p m =>
    simp only [exec, execSdivr] at h
    split_ifs at h <;> cases h
    · exact .fault _ s
    · exact .fault _ s
    · exact deliverRounded_ends _ _ _ s
  | mdtpr p m =>
    simp only [exec, execMdtpr] at h
    split_ifs at h <;> cases h
    · exact .fault _ s
    · exact deliverRounded_ends _ _ _ s
  | parse =>
    simp only [exec, execParse] at h
    split_ifs at h
    · cases h
      exact .fault _ s
    · cases hr : readText s.txt s.tlen.toNat 0 with
      | error k => rw [hr] at h; cases h
      | ok t' =>
        rw [hr] at h
        cases h
        exact deliverParsed_ends t' s

/-- A command issue with a next state has left the state alone (while faulted, R207), or ended as a command does. -/
theorem issueCommand_ends {w : CmdWord} {s t : State} (h : issueCommand w s = .next t) :
    (s.status.fault.isSome = true ∧ t = s) ∨ (s.status.fault = none ∧ EndsAs s t) := by
  unfold issueCommand at h
  split_ifs at h with hf
  · cases h
    exact .inl ⟨hf, rfl⟩
  · have hn : s.status.fault = none := by simpa using hf
    cases hd : decode w with
    | illegal why =>
      rw [hd] at h
      cases h
      exact .inr ⟨hn, .fault _ s⟩
    | command i =>
      rw [hd] at h
      exact .inr ⟨hn, exec_ends h⟩

/-! ### What an ended command leaves alone -/

/-- The operand registers, the text and the model's own fields are as before (R21, R29, R30, R205). -/
theorem EndsAs.frame {s t : State} (h : EndsAs s t) :
    t.a = s.a ∧ t.b = s.b ∧ t.c = s.c ∧ t.tlen = s.tlen ∧ t.txt = s.txt ∧ t.config = s.config ∧ t.script = s.script ∧
      t.hostReads = s.hostReads := by
  rcases h with ⟨c, rfl⟩ | ⟨r0, r1, rsc, o, p, k, -, rfl⟩ <;> simp

/-- A scale that an ended command leaves never exceeds 18 (R19). -/
theorem EndsAs.scaleWf {s t : State} (h : EndsAs s t) : t.scaleWf := by
  rcases h with ⟨c, rfl⟩ | ⟨r0, r1, rsc, o, p, k, he, rfl⟩
  · simp [State.scaleWf]
  · cases he <;> simp_all [State.scaleWf]

/-- `STATUS` after a fault is `0x100 + 0x200 * code`: `FCAUSE`, then `FAULT`, then eight zero bits (R205, R25). -/
theorem statusWord_raiseFault (c : FaultCause) (s : State) :
    (raiseFault c s).statusWord = (0#19 ++ c.code ++ 0x100#9 : BitVec 32) := by
  simp only [State.statusWord, raiseFault_status, raiseFault_r0, raiseFault_r1, raiseFault_rsc, Status.faulted_fault,
    Status.faulted_ovf, Status.faulted_ovfb, Status.faulted_perr, Option.isSome_some, Option.isSome_none, fcauseField,
    perrField]
  cases c <;> decide

/-- `STATUS` after a completion: the flags of the completion under the fault bits as they were (R26). -/
theorem statusWord_complete (r0 r1 : Option Word) (rsc : Option Byte) (ovf ovfb : Bool) (perr : Option ParseError)
    (s : State) :
    (complete r0 r1 rsc ovf ovfb perr s).statusWord =
      (0#19 ++ fcauseField s.status.fault ++ BitVec.ofBool s.status.fault.isSome ++ perrField perr ++
        BitVec.ofBool ovfb ++ BitVec.ofBool ovf ++ BitVec.ofBool rsc.isSome ++ BitVec.ofBool r1.isSome ++
        BitVec.ofBool r0.isSome : BitVec 32) := by
  simp only [State.statusWord, complete_status, complete_r0, complete_r1, complete_rsc, Status.complete_fault,
    Status.complete_ovf, Status.complete_ovfb, Status.complete_perr]

/-- An ended command leaves a legal `STATUS` (R26), when no fault was pending. -/
theorem EndsAs.statusWf {s t : State} (hn : s.status.fault = none) (h : EndsAs s t) : t.statusWf := by
  rcases h with ⟨c, rfl⟩ | ⟨r0, r1, rsc, o, p, k, he, rfl⟩
  · rw [State.statusWf, statusWord_raiseFault]
    cases c <;> decide
  · rw [State.statusWf, statusWord_complete, hn]
    cases he with
    | failed e => cases e <;> decide
    | absent => decide
    | _ => simp only [Option.isSome_some]; decide

end Sys2Proof.Machine
end

