-- ==== Sys2Proof/Laws/PerInstr.lean ====
section
/-! SUPPORT. The per-instruction family `RowTest`: the word of a command passes the test of its row of 30_encoding.md R75,
`(w & mask) = match`, with its opcode in bits 7:0. -/

namespace Sys2Proof.Laws.RowTest

/-- What the family says of a command. -/
def Statement (i : Instr) : Prop :=
  encode i &&& i.opcode.mask = i.opcode.matchWord ∧ opField (encode i) = i.opcode.number

/-- Every command, from the one lemma on rows. -/
theorem all_rows (i : Instr) : Statement i := ⟨encode_rowTest i, ((rowTest_iff i.opcode _).mp (encode_rowTest i)).1⟩

theorem tenpow (n : Nat) : Statement (.tenpow n) := all_rows _

theorem mulp10 (n : Nat) : Statement (.mulp10 n) := all_rows _

theorem cmulp10 (n : Nat) : Statement (.cmulp10 n) := all_rows _

theorem adj (s1 s2 : Nat) : Statement (.adj s1 s2) := all_rows _

theorem cadj (s1 s2 : Nat) : Statement (.cadj s1 s2) := all_rows _

theorem sdivf (p : Nat) : Statement (.sdivf p) := all_rows _

theorem dmdf : Statement .dmdf := all_rows _

theorem divmodf : Statement .divmodf := all_rows _

theorem divr (mode : RoundingMode) : Statement (.divr mode) := all_rows _

theorem sdivr (p : Nat) (mode : RoundingMode) : Statement (.sdivr p mode) := all_rows _

theorem mdtpr (p : Nat) (mode : RoundingMode) : Statement (.mdtpr p mode) := all_rows _

theorem parse : Statement .parse := all_rows _

end Sys2Proof.Laws.RowTest
end

