-- ==== Sys2Proof/Laws/Step.lean ====
section
/-! SUPPORT. What a step can do, said once per host action (70_reset_and_hazards.md R238), and what follows for the fields
of the state. -/

namespace Sys2Proof.Machine

/-! ### The step by the next host action -/

theorem step_idle {s : State} (h : s.script = []) : step s = .next s := by
  simp [step, hostStep, h]

theorem step_action {s : State} {act : HostAction} {rest : List HostAction} (h : s.script = act :: rest) :
    step s = perform act { s with script := rest } := by
  simp [step, hostStep, h]

/-- A step with a next state was idle, or performed the first action of the script. -/
theorem step_cases {s t : State} (h : step s = .next t) :
    (s.script = [] ∧ t = s) ∨
      ∃ act rest, s.script = act :: rest ∧ perform act { s with script := rest } = .next t := by
  cases hs : s.script with
  | nil =>
    rw [step_idle hs] at h
    cases h
    exact .inl ⟨rfl, rfl⟩
  | cons act rest =>
    rw [step_action hs] at h
    exact .inr ⟨act, rest, rfl, h⟩

/-- What performing an action does, when it has a next state: an issue ends as a command does or is ignored, and every
other action is one of the host accesses. -/
theorem perform_cases {act : HostAction} {s t : State} (h : perform act s = .next t) :
    (∃ w, act = .issue w ∧ ((s.status.fault.isSome = true ∧ t = s) ∨ (s.status.fault = none ∧ EndsAs s t))) ∨
    (∃ r v, act = .writeOperand r v ∧ t = writeOperandReg r v s) ∨
    (∃ n, act = .writeTlen n ∧ t = writeTlenReg n s) ∨
    (∃ i b, act = .writeText i b ∧ i < s.config.textMax ∧ t = { s with txt := Memory.write s.txt i b }) ∨
    (∃ r v, act = .writeReadOnly r v ∧ t = s) ∨
    (∃ r v, act = .readReg r ∧ readHostReg r s = some v ∧ t = hostTakes v s) ∨
    (∃ i b, act = .readText i ∧ Memory.read s.txt i = some b ∧ t = hostTakes (b.setWidth 128) s) ∨
    (act = .reset ∧ t = resetBlock s) ∨
    (∃ r v, act = .writeLastRead r ∧ t = writeOperandReg r v s) ∨
    (∃ n, (act = .skip n ∨ ∃ q, act = .skipUnless q n) ∧ (t = s ∨ t = skipLines n s)) := by
  cases act with
  | issue w => exact .inl ⟨w, rfl, issueCommand_ends h⟩
  | writeOperand r v =>
    cases h
    exact .inr (.inl ⟨r, v, rfl, rfl⟩)
  | writeTlen n =>
    cases h
    exact .inr (.inr (.inl ⟨n, rfl, rfl⟩))
  | writeText i b =>
    simp only [perform, writeTextByte] at h
    split_ifs at h with hi
    cases h
    exact .inr (.inr (.inr (.inl ⟨i, b, rfl, hi, rfl⟩)))
  | writeReadOnly r v =>
    cases h
    exact .inr (.inr (.inr (.inr (.inl ⟨r, v, rfl, rfl⟩))))
  | readReg r =>
    simp only [perform, readRegister] at h
    split at h <;> cases h
    exact .inr (.inr (.inr (.inr (.inr (.inl ⟨r, _, rfl, ‹_›, rfl⟩)))))
  | readText i =>
    simp only [perform, readTextByte] at h
    split_ifs at h with hi
    split at h <;> cases h
    exact .inr (.inr (.inr (.inr (.inr (.inr (.inl ⟨i, _, rfl, ‹_›, rfl⟩))))))
  | reset =>
    cases h
    exact .inr (.inr (.inr (.inr (.inr (.inr (.inr (.inl ⟨rfl, rfl⟩)))))))
  | writeLastRead r =>
    simp only [perform, writeLastReadValue] at h
    split at h <;> cases h
    exact .inr (.inr (.inr (.inr (.inr (.inr (.inr (.inr (.inl ⟨r, _, rfl, rfl⟩))))))))
  | skipUnless q n =>
    simp only [perform, skipLinesUnless] at h
    split at h <;> cases h
    refine .inr (.inr (.inr (.inr (.inr (.inr (.inr (.inr (.inr ⟨n, .inr ⟨q, rfl⟩, ?_⟩))))))))
    split_ifs <;> simp
  | skip n =>
    cases h
    exact .inr (.inr (.inr (.inr (.inr (.inr (.inr (.inr (.inr ⟨n, .inl rfl, .inr rfl⟩))))))))

/-! ### A command port word before the script -/

theorem step_withFetchWord (s : State) (nbits w : Nat) :
    step (s.withFetchWord nbits w) = issueCommand (tableCommandWord nbits w) s := by
  rw [State.withFetchWord, beforeAction, step_action rfl]
  rfl

/-- An induction over runs, packaged once: what every step keeps, every run keeps. -/
theorem run_keeps {P : State → Prop} (keep : ∀ s t, P s → step s = .next t → P t) :
    ∀ (k : Nat) (s t : State), P s → core.run k s = .next t → P t := by
  intro k
  induction k with
  | zero =>
    intro s t hp h
    cases h
    exact hp
  | succ k ih =>
    intro s t hp h
    simp only [Host.Core.run] at h
    split at h
    · exact ih _ t (keep s _ hp ‹_›) h
    · cases h
    · cases h

end Sys2Proof.Machine
end

