-- ==== Sys2Proof/Laws/Text.lean ====
section
/-! SUPPORT. The scanner and the grammar: the class of each byte a spelling is made of (20_memory.md R51), and how the
single pass goes through a text piece by piece (44_parser.md R182). -/

namespace Sys2Proof.Machine

@[simp] theorem classOf_digitByte (d : Digit) : classOf (digitByte d) = .digit d.val := by
  revert d
  decide

@[simp] theorem classOf_signByte (neg : Bool) : classOf (signByte neg) = .sign neg := by
  cases neg <;> decide

@[simp] theorem classOf_pointByte : classOf pointByte = .point := by decide

@[simp] theorem classOf_markerByte (upper : Bool) : classOf (markerByte upper) = .marker := by
  cases upper <;> decide

/-- The pass over two pieces is the pass over the first, then over the second. -/
theorem Scan.run_append (sc : Scan) (t u : List Byte) : sc.run (t ++ u) = (sc.run t).bind fun sc' => sc'.run u := by
  induction t generalizing sc with
  | nil => rfl
  | cons b t ih =>
    simp only [List.cons_append, Scan.run]
    cases sc.move (classOf b) with
    | none => rfl
    | some sc' => exact ih sc'

theorem BoundedScan.run_append (sc : BoundedScan) (t u : List Byte) :
    sc.run (t ++ u) = (sc.run t).bind fun sc' => sc'.run u := by
  induction t generalizing sc with
  | nil => rfl
  | cons b t ih =>
    simp only [List.cons_append, BoundedScan.run]
    cases sc.move (classOf b) with
    | none => rfl
    | some sc' => exact ih sc'

/-- A digit run in the integer digits. -/
theorem Scan.run_integer (ds : List Digit) (sc : Scan) (h : sc.at_ = .s2) :
    sc.run (ds.map digitByte) = some { sc with mag := ds.foldl (fun v d => v * 10 + d.val) sc.mag } := by
  induction ds generalizing sc with
  | nil => rfl
  | cons d ds ih =>
    obtain ⟨at_, neg, mag, frac, expNeg, exp⟩ := sc
    subst h
    simp [Scan.run, Scan.move, Scan.takeDigit, ih]

/-- A digit run in the fractional digits. -/
theorem Scan.run_fraction (ds : List Digit) (sc : Scan) (h : sc.at_ = .s4) :
    sc.run (ds.map digitByte) =
      some { sc with mag := ds.foldl (fun v d => v * 10 + d.val) sc.mag, frac := sc.frac + ds.length } := by
  induction ds generalizing sc with
  | nil => rfl
  | cons d ds ih =>
    obtain ⟨at_, neg, mag, frac, expNeg, exp⟩ := sc
    subst h
    simp [Scan.run, Scan.move, Scan.takeFraction, ih, Nat.add_assoc, Nat.add_comm 1]

/-- A digit run in the exponent. -/
theorem Scan.run_exponent (ds : List Digit) (sc : Scan) (h : sc.at_ = .s7) :
    sc.run (ds.map digitByte) = some { sc with exp := ds.foldl (fun v d => v * 10 + d.val) sc.exp } := by
  induction ds generalizing sc with
  | nil => rfl
  | cons d ds ih =>
    obtain ⟨at_, neg, mag, frac, expNeg, exp⟩ := sc
    subst h
    simp [Scan.run, Scan.move, Scan.takeExponent, ih]

end Sys2Proof.Machine
end

