-- ==== Sys2Proof/Tests/Slice0.lean ====
section
/-! SUPPORT. The model's own tests, on fixed values taken from 95_test_vectors.md (its row is named in each), and for every
statement of Obligations.lean that has hypotheses a state and operands that meet them (`witness_…`). -/

namespace Sys2Proof.Tests

open Sys2Proof.Machine Sys2Proof.Reference

/-! ### Small states -/

/-- After reset, with these operands written. -/
def operands (a b c : Int) : State := { State.reset with a := bits128 a, b := bits128 b, c := bits128 c }

/-- The cells of a text from address `i`. -/
def cells : Nat → List Byte → Memory
  | _, [] => []
  | i, b :: rest => (i, b) :: cells (i + 1) rest

/-- After reset, with this text loaded. -/
def withText (t : List Byte) : State := { State.reset with txt := cells 0 t, tlen := BitVec.ofNat 16 t.length }

/-- A state whose script is these lines. -/
def scripted (lines : List HostAction) (s : State) : State := { s with script := lines }

/-- A block that has taken `ZERO_DIVISOR`. -/
def faulted : State := raiseFault .zeroDivisor (operands 5 2 0)

/-- A block with all three results valid (row P32). -/
def allValid : State := presentPairAtScale 150#128 25#128 2#8 (operands 15 25 0)

/-- What a host sees of an outcome: `R0` and `R1` signed, `RSC`, `STATUS`. -/
def seen (o : StepOutcome) : Option (Option Int × Option Int × Option Nat × Nat) :=
  match o with
  | .next t => some (t.r0.map BitVec.toInt, t.r1.map BitVec.toInt, t.rsc.map BitVec.toNat, t.statusWord.toNat)
  | .fault _ => none
  | .refused _ => none

/-! ### Well-formedness: an ill-formed term for each check -/

theorem test_illformed_tenpow : (Instr.tenpow 256).wf = false := by decide

theorem test_illformed_mulp10 : (Instr.mulp10 256).wf = false := by decide

theorem test_illformed_cmulp10 : (Instr.cmulp10 256).wf = false := by decide

theorem test_illformed_adj : (Instr.adj 256 0).wf = false ∧ (Instr.adj 0 256).wf = false := by decide

theorem test_illformed_cadj : (Instr.cadj 256 0).wf = false ∧ (Instr.cadj 0 256).wf = false := by decide

theorem test_illformed_sdivf : (Instr.sdivf 256).wf = false := by decide

theorem test_illformed_sdivr : (Instr.sdivr 256 .floor).wf = false := by decide

theorem test_illformed_mdtpr : (Instr.mdtpr 256 .floor).wf = false := by decide

/-! ### Decoding: words written out from 30_encoding.md R72 as `p2 p rsv mode op` -/

theorem test_decode_tenpow : decode 0b00000000_00000010_0000_0000_00000001#32 = .command (.tenpow 2) := by decide

theorem test_decode_mulp10 : decode 0b00000000_00000001_0000_0000_00000010#32 = .command (.mulp10 1) := by decide

theorem test_decode_cmulp10 : decode 0b00000000_00100110_0000_0000_00000011#32 = .command (.cmulp10 38) := by decide

theorem test_decode_adj : decode 0b00000010_00000001_0000_0000_00000100#32 = .command (.adj 1 2) := by decide

theorem test_decode_cadj : decode 0b00010011_00000000_0000_0000_00000101#32 = .command (.cadj 0 19) := by decide

theorem test_decode_sdivf : decode 0b00000000_00000010_0000_0000_00010000#32 = .command (.sdivf 2) := by decide

theorem test_decode_dmdf : decode 0b00000000_00000000_0000_0000_00010001#32 = .command .dmdf := by decide

theorem test_decode_divmodf : decode 0b00000000_00000000_0000_0000_00100000#32 = .command .divmodf := by decide

theorem test_decode_divr : decode 0b00000000_00000000_0000_1000_00110000#32 = .command (.divr .halfFloor) := by decide

theorem test_decode_sdivr : decode 0b00000000_00000001_0000_0100_00110001#32 = .command (.sdivr 1 .halfUp) := by decide

theorem test_decode_mdtpr : decode 0b00000000_00100110_0000_0110_00110010#32 = .command (.mdtpr 38 .halfEven) := by
  decide

theorem test_decode_parse : decode 0b00000000_00000000_0000_0000_01000000#32 = .command .parse := by decide

/-- Rows E11 to E23. -/
theorem test_decode_illegal_words :
    ([0x00000000#32, 0x000000FF#32].all fun w => decode w == .illegal .unknownOpcode) = true ∧
    ([0x00001001#32, 0x00000101#32, 0x01000001#32, 0x00010011#32, 0x00000120#32, 0x00010030#32, 0x80000030#32,
      0x01000031#32, 0x00010040#32].all fun w => decode w == .illegal .fieldNotZero) = true ∧
    ([0x00000930#32, 0x00000F31#32].all fun w => decode w == .illegal .noSuchMode) = true := by decide

/-- Rows E24 and E25, in the numbering of the opcode table: legal words whatever the range of their fields. -/
theorem test_decodeTableWord :
    decodeTableWord 32 0x00FF0001 = some (.tenpow 255) ∧ decodeTableWord 32 0xFFFF0004 = some (.adj 255 255) ∧
      decodeTableWord 32 0 = none := by decide

/-- No two rows of R75 have one opcode, and each row's `match` holds its opcode and lies inside its `mask`. -/
theorem test_rows_do_not_overlap :
    (Opcode.all.Pairwise fun o o' => o.number ≠ o'.number) ∧
      ∀ o ∈ Opcode.all, opField o.matchWord = o.number ∧ o.matchWord &&& o.mask = o.matchWord := by decide

/-! ### Commands -/

/-- Row P2. -/
theorem test_tenpow_18 : seen (exec (.tenpow 18) State.reset) = some (some 1000000000000000000, none, none, 0x001) := by
  decide

/-- Row P4. -/
theorem test_tenpow_39 : seen (exec (.tenpow 39) State.reset) = some (none, none, none, 0x500) := by decide

/-- Row P13. -/
theorem test_mulp10_negative :
    seen (exec (.mulp10 37) (operands (-17) 0 0)) =
      some (some (-170000000000000000000000000000000000000), none, none, 0x001) := by decide

/-- Row P14. -/
theorem test_mulp10_overflow : seen (exec (.mulp10 38) (operands 2 0 0)) = some (none, none, none, 0x1100) := by decide

/-- Row P28. -/
theorem test_cmulp10_lowest_present :
    seen (exec (.cmulp10 1) (operands (-17014118346046923173168730371588410572) 0 0)) =
      some (some (-170141183460469231731687303715884105720), none, none, 0x001) := by decide

/-- Row P29. -/
theorem test_cmulp10_first_absent :
    seen (exec (.cmulp10 1) (operands (-17014118346046923173168730371588410573) 0 0)) =
      some (none, none, none, 0x008) := by decide

/-- Row P33. -/
theorem test_adj_second_scaled :
    seen (exec (.adj 2 1) (operands 25 15 0)) = some (some 25, some 150, some 2, 0x007) := by decide

/-- Row P38. -/
theorem test_adj_overflow :
    seen (exec (.adj 18 17) (operands 1 170141183460469231731687303715884105727 0)) =
      some (none, none, none, 0x1100) := by decide

/-- Row P43. -/
theorem test_cadj_first_over :
    seen (exec (.cadj 0 1) (operands 170141183460469231731687303715884105727 1 0)) =
      some (none, some 1, some 1, 0x00E) := by decide

/-- Row P45. -/
theorem test_cadj_second_over :
    seen (exec (.cadj 1 0) (operands (-1) (-170141183460469231731687303715884105728) 0)) =
      some (some (-1), none, some 1, 0x015) := by decide

/-- Row W3. -/
theorem test_sdivf_negative_divisor :
    seen (exec (.sdivf 2) (operands 7 (-3) 0)) = some (some (-234), some (-2), none, 0x003) := by decide

/-- Row W12: absent although the true quotient -2^127 fits (conflict C1). -/
theorem test_sdivf_absent :
    seen (exec (.sdivf 0) (operands (-170141183460469231731687303715884105728) 1 0)) =
      some (none, none, none, 0x008) := by decide

/-- Row M1. -/
theorem test_dmdf_negative : seen (exec .dmdf (operands 6 (-7) 4)) = some (some (-11), some 2, none, 0x003) := by decide

/-- Row M18: the one way -2^127 is reached. -/
theorem test_dmdf_reaches_min :
    seen (exec .dmdf (operands (-68056473384187692692674921486353642291) 10 4)) =
      some (some (-170141183460469231731687303715884105728), some 2, none, 0x003) := by decide

/-- Row F3. -/
theorem test_divmodf_negative_divisor :
    seen (exec .divmodf (operands 7 (-2) 0)) = some (some (-4), some (-1), none, 0x003) := by decide

/-- Row F24. -/
theorem test_divmodf_overflow :
    seen (exec .divmodf (operands (-170141183460469231731687303715884105728) (-1) 0)) =
      some (none, none, none, 0xF00) := by decide

/-- Row D12: nearest for a negative quotient (conflict C2). -/
theorem test_divr_half_up_negative :
    seen (exec (.divr .halfUp) (operands (-7) 3 0)) = some (some (-2), none, none, 0x001) := by decide

/-- Row D10. -/
theorem test_divr_half_even :
    seen (exec (.divr .halfEven) (operands (-1) 2 0)) = some (some 0, none, none, 0x001) := by decide

/-- Row R22: rounding up from 2^127 - 1. -/
theorem test_sdivr_rounds_out_of_range :
    seen (exec (.sdivr 1 .ceiling) (operands 68056473384187692692674921486353642291 4 0)) =
      some (none, none, none, 0x008) := by decide

/-- Row R6. -/
theorem test_sdivr_half_down :
    seen (exec (.sdivr 1 .halfDown) (operands (-1) 4 0)) = some (some (-2), none, none, 0x001) := by decide

/-- Row T10. -/
theorem test_mdtpr_half_even :
    seen (exec (.mdtpr 1 .halfEven) (operands (-25) 25 0)) = some (some (-62), none, none, 0x001) := by decide

/-- Row T24. -/
theorem test_mdtpr_39 : seen (exec (.mdtpr 39 .up) (operands 3 3 0)) = some (none, none, none, 0x500) := by decide

/-- Row X19, `"12.345e2"`. -/
theorem test_parse_exponent :
    seen (exec .parse (withText [0x31#8, 0x32#8, 0x2E#8, 0x33#8, 0x34#8, 0x35#8, 0x65#8, 0x32#8])) =
      some (some 12345, none, some 1, 0x005) := by decide

/-- Row X29, `"12.34.5"`. -/
theorem test_parse_malformed :
    seen (exec .parse (withText [0x31#8, 0x32#8, 0x2E#8, 0x33#8, 0x34#8, 0x2E#8, 0x35#8])) =
      some (none, none, none, 0x060) := by decide

/-! ### Units, steps -/

/-- Row UM7. -/
theorem test_limbMul :
    limbMul 0xFEDCBA9876543210FEDCBA9876543210#128 0x0123456789ABCDEF0123456789ABCDEF#128 =
      (0x0121FA00AD77D742247ACC9140513B74#128, 0x458FAB20783AF1222236D88FE5618CF0#128) := by decide

/-- Trace TT3: two corrections of each digit. -/
theorem test_tieredDivRem :
    tieredDivRem 0xB0C4312D20203666FFFFFFFFFFFFFFFE#128 0x1A81682C64E50CAD66237A0465E7E423#128
        0xB0C4312D20203666FFFFFFFFFFFFFFFF#128 =
      ⟨0#128, 0xFFFFFFFFFFFFFFFFFFFFFFFFFFFFFFFE#128, 0x7C09CA86A525797B66237A0465E7E421#128⟩ := by decide

/-- Row G2: the word is fetched, decoded and run; `POW_RANGE` wins over `ZERO_DIVISOR`. -/
theorem test_step_fault_priority :
    seen (step ((operands 1 0 0).withFetchWord 32 0x00270010)) = some (none, none, none, 0x500) := by decide

/-- Row G13: ignored while faulted. -/
theorem test_step_faulted : seen (step (faulted.withFetchWord 32 0)) = some (none, none, none, 0xB00) := by decide

/-! ### Witnesses: every statement with hypotheses, each clause at a boundary of its range -/

/-- `MAX` and `MIN` of 95_test_vectors.md. -/
def maxInt : Int := 170141183460469231731687303715884105727

def minInt : Int := -170141183460469231731687303715884105728

/-- Ready to perform `act`. -/
def ready (act : HostAction) : State := scripted [act, .readReg .status] (operands 7 2 1)

theorem witness_DecodeOfEncodeIsTheCommand :
    (Instr.adj 255 255).wf = true ∧ (Instr.mdtpr 255 .halfFloor).wf = true ∧ Instr.parse.wf = true := by decide

theorem witness_EncodeOfDecodeIsTheWord : decode 0xFFFF0005#32 = .command (.cadj 255 255) := by decide

theorem witness_DecodedFieldsAreTheBits :
    decode 0x00FF0001#32 = .command (.tenpow 255) ∧ decode 0x00FF0002#32 = .command (.mulp10 255) ∧
      decode 0x00FF0003#32 = .command (.cmulp10 255) ∧ decode 0x00FF0010#32 = .command (.sdivf 255) ∧
      decode 0xFF000004#32 = .command (.adj 0 255) ∧ decode 0x00FF0005#32 = .command (.cadj 255 0) ∧
      decode 0x00FF0831#32 = .command (.sdivr 255 .halfFloor) ∧ decode 0x00FF0032#32 = .command (.mdtpr 255 .floor) ∧
      decode 0x00000830#32 = .command (.divr .halfFloor) := by decide

theorem witness_StepRunsDecodedCommand :
    (ready (.issue 0x20#32)).script = .issue 0x20#32 :: [.readReg .status] ∧
      (ready (.issue 0x20#32)).status.fault = none ∧ decode 0x20#32 = .command .divmodf := by decide

theorem witness_IllegalWordRaisesIllegalCmd :
    (ready (.issue 0x00000930#32)).script = .issue 0x00000930#32 :: [.readReg .status] ∧
      (ready (.issue 0x00000930#32)).status.fault = none ∧ decode 0x00000930#32 = .illegal .noSuchMode := by decide

/-- One faulted state, its script beginning with each action the statement names. -/
theorem witness_FaultedBlockIgnoresCommandsOnly :
    ∀ act ∈ [HostAction.issue 0#32, .issue 0x20#32, .writeOperand .a 7#128, .writeOperand .b 7#128,
        .writeOperand .c 7#128, .writeTlen 65535#16, .writeText 255 0x31#8, .readReg .status],
      (scripted [act] faulted).script = act :: [] ∧ (scripted [act] faulted).status.fault ≠ none ∧
        255 < (scripted [act] faulted).config.textMax := by decide

theorem witness_FaultIsStickyUntilReset :
    ∃ t, (scripted [.issue 0#32] faulted).status.fault = some .zeroDivisor ∧
      (scripted [.issue 0#32] faulted).script.head? ≠ some .reset ∧ step (scripted [.issue 0#32] faulted) = .next t :=
  ⟨scripted [] faulted, by decide, by decide, rfl⟩

theorem witness_ResetActionResetsAllState : (scripted [.reset] allValid).script = .reset :: [] := rfl

theorem witness_HostReadReturnsTheLatestWrite :
    (∀ x ∈ [(OperandReg.a, HostReg.a), (.b, .b), (.c, .c)],
      (scripted [.writeOperand x.1 5#128, .readReg x.2] allValid).script =
        .writeOperand x.1 5#128 :: .readReg x.2 :: []) ∧
    (scripted [.writeTlen 65535#16, .readReg .tlen] allValid).script = .writeTlen 65535#16 :: .readReg .tlen :: [] ∧
    255 < (scripted [.writeText 255 0x80#8, .readText 255] allValid).config.textMax ∧
    (scripted [.writeText 255 0x80#8, .readText 255] allValid).script =
      .writeText 255 0x80#8 :: .readText 255 :: [] := by decide

theorem witness_TextWriteChangesOneByte :
    (scripted [.writeText 255 0x39#8] (withText [0x31#8])).script = .writeText 255 0x39#8 :: [] ∧
      255 < (scripted [.writeText 255 0x39#8] (withText [0x31#8])).config.textMax := by decide

theorem witness_ReadOnlyWritesAreIgnored :
    ∀ r ∈ [ReadOnlyReg.r0, .r1, .rsc, .status],
      (scripted [.writeReadOnly r 9#128] allValid).script = .writeReadOnly r 9#128 :: [] := by decide

theorem witness_ResultReadsNeedValidity :
    (∀ h ∈ [HostReg.r0, .r1, .rsc, .status],
      (scripted [.readReg h] allValid).script = .readReg h :: [] ∧
        (scripted [.readReg h] State.reset).script = .readReg h :: []) ∧
    allValid.r0 = some 150#128 ∧ allValid.r1 = some 25#128 ∧ allValid.rsc = some 2#8 ∧
    State.reset.r0 = none ∧ State.reset.r1 = none ∧ State.reset.rsc = none := by decide

theorem witness_TextAccessStopsWhereNothingIsHeld :
    State.reset.config.textMax ≤ 256 ∧ (scripted [.readText 256] State.reset).script = .readText 256 :: [] ∧
    (scripted [.writeText 256 0x31#8] State.reset).script = .writeText 256 0x31#8 :: [] ∧
    255 < State.reset.config.textMax ∧ Memory.read State.reset.txt 255 = none ∧
    (scripted [.readText 255] State.reset).script = .readText 255 :: [] := by decide

/-- A read of `A`: no clause is shut out by it. -/
theorem witness_OnlyTheNamedWriterChangesAPlace :
    ∃ t, (scripted [.readReg .a] allValid).script = .readReg .a :: [] ∧ step (scripted [.readReg .a] allValid) = .next t ∧
      (∀ w, HostAction.readReg .a ≠ .issue w) ∧ HostAction.readReg .a ≠ .reset ∧
      (∀ v, HostAction.readReg .a ≠ .writeOperand .a v) ∧ HostAction.readReg .a ≠ .writeLastRead .a ∧
      (∀ n, HostAction.readReg .a ≠ .writeTlen n) ∧ ∀ i b, HostAction.readReg .a ≠ .writeText i b :=
  ⟨{ scripted [] allValid with hostReads := [15#128] }, rfl, rfl, by simp⟩

theorem witness_StepKeepsTheInvariant :
    ∃ t, (State.reset.withFetchWord 32 0x20).Inv ∧ step (State.reset.withFetchWord 32 0x20) = .next t :=
  ⟨raiseFault .zeroDivisor State.reset, ⟨by decide, by decide, by decide, by decide⟩, rfl⟩

theorem witness_TableHoldsThePowersOfTen : 0 ≤ 38 ∧ 38 ≤ 38 := by decide

theorem witness_TenpowGivesThePower : 38 < 39 ∧ 38 ≤ 38 := by decide

theorem witness_Mulp10GivesTheProductOrFaults :
    38 < 39 ∧ ¬Fits ((operands 2 0 0).a.toInt * 10 ^ 38) ∧ Fits ((operands 1 0 0).a.toInt * 10 ^ 38) ∧
      Fits ((operands minInt 0 0).a.toInt * 10 ^ 0) ∧ ¬Fits ((operands minInt 0 0).a.toInt * 10 ^ 1) := by decide

theorem witness_Cmulp10GivesTheProductOrAbsent :
    38 < 39 ∧ ¬Fits ((operands 17014118346046923173168730371588410573 0 0).a.toInt * 10 ^ 1) ∧
      Fits ((operands 17014118346046923173168730371588410572 0 0).a.toInt * 10 ^ 1) := by decide

theorem witness_PowerIndexAbove38Faults :
    38 < 39 ∧ ∀ i ∈ [Instr.tenpow 39, .mulp10 39, .cmulp10 39, .sdivf 39, .sdivr 39 .floor, .mdtpr 39 .floor],
      i ∈ [Instr.tenpow 39, .mulp10 39, .cmulp10 39, .sdivf 39, .sdivr 39 .floor, .mdtpr 39 .floor] := by decide

theorem witness_AdjGivesBothCoefficientsAtTheLargerScale :
    (18 < 19 ∨ 18 < 0) ∧ (18 < 0 ∨ 18 < 19) ∧
    (0 ≤ 18 ∧ 18 ≤ 18 ∧ ¬Fits ((operands maxInt 1 0).a.toInt * 10 ^ (max 0 18 - 0))) ∧
    Fits ((operands 1 maxInt 0).a.toInt * 10 ^ (max 0 18 - 0)) ∧
    Fits ((operands 1 maxInt 0).b.toInt * 10 ^ (max 0 18 - 18)) := by decide

theorem witness_CadjReportsEachSide :
    (18 < 19 ∨ 18 < 0) ∧
    (0 ≤ 18 ∧ 1 ≤ 18 ∧ ¬Fits ((operands maxInt 1 0).a.toInt * 10 ^ (max 0 1 - 0))) ∧
    (18 ≤ 18 ∧ 17 ≤ 18 ∧ ¬Fits ((operands 1 minInt 0).b.toInt * 10 ^ (max 18 17 - 17))) ∧
    Fits ((operands minInt minInt 0).a.toInt * 10 ^ (max 18 18 - 18)) ∧
    Fits ((operands minInt minInt 0).b.toInt * 10 ^ (max 18 18 - 18)) := by decide

theorem witness_WideQuotientIsExact : (1#128 : Word) ≠ 0#128 := by decide

theorem witness_DividerTierOneIsExact :
    0xFFFFFFFFFFFFFFFF#128 ≠ 0#128 ∧ (0xFFFFFFFFFFFFFFFF#128).toNat < 2 ^ 64 := by decide

/-- Trace TT3, where two corrections are needed. -/
theorem witness_QuotientDigitIsExactAfterTwoCorrections :
    2 ^ 127 ≤ (0xB0C4312D20203666FFFFFFFFFFFFFFFF#128).toNat ∧
      (0xB0C4312D20203666FFFFFFFFFFFFFFFE#128).toNat < (0xB0C4312D20203666FFFFFFFFFFFFFFFF#128).toNat ∧
      (0x1A81682C64E50CAD#128).toNat < 2 ^ 64 ∧ 2 ≤ 2 := by decide

theorem witness_TieredDividerRefinesTheQuotient :
    0x10000000000000000#128 ≠ 0#128 ∧ 1#128 ≠ 0#128 ∧ 0xFFFFFFFFFFFFFFFFFFFFFFFFFFFFFFFF#128 ≠ 0#128 := by decide

/-- Quotient 2^127 and quotient 2^127 - 1. -/
theorem witness_WideFloorIsFloorDivisionOrAbsent :
    (1#128 : Word).toInt ≠ 0 ∧ 0 < wideValue 0#128 0x80000000000000000000000000000000#128 ∧
      TooLarge (-(wideValue 0#128 0x80000000000000000000000000000000#128 : Int)) (1#128 : Word).toInt ∧
      ¬TooLarge (wideValue 0#128 0x7FFFFFFFFFFFFFFFFFFFFFFFFFFFFFFF#128 : Int) (1#128 : Word).toInt := by decide

theorem witness_SdivfGivesTheFloorPairOrAbsent :
    38 < 39 ∧ (operands 1 0 0).b.toInt = 0 ∧ (operands minInt 1 0).b.toInt ≠ 0 ∧
      TooLarge ((operands minInt 1 0).a.toInt * 10 ^ 0) (operands minInt 1 0).b.toInt ∧
      ¬TooLarge ((operands 1 minInt 0).a.toInt * 10 ^ 38) (operands 1 minInt 0).b.toInt ∧
      (operands 1 minInt 0).b.toInt ≠ 0 := by decide

theorem witness_DmdfGivesTheFloorPairOrAbsent :
    (operands 1 1 0).c.toInt = 0 ∧ (operands 1 1 (-1)).c.toInt < 0 ∧ 0 < (operands minInt 1 1).c.toInt ∧
      TooLarge ((operands minInt 1 1).a.toInt * (operands minInt 1 1).b.toInt) (operands minInt 1 1).c.toInt ∧
      0 < (operands maxInt maxInt maxInt).c.toInt ∧
      ¬TooLarge ((operands maxInt maxInt maxInt).a.toInt * (operands maxInt maxInt maxInt).b.toInt)
        (operands maxInt maxInt maxInt).c.toInt := by decide

/-- -7 by 2, and the smallest quotient a converter meets. -/
theorem witness_FloorConverterMeetsItsPostcondition :
    (Fits (-7) ∧ Fits 2 ∧ Fits (-3) ∧ (2 : Int) ≠ 0 ∧ (-7 : Int) = -3 * 2 + -1 ∧ (-1 : Int).natAbs < (2 : Int).natAbs ∧
      ((-1 : Int) = 0 ∨ (-1 : Int).sign = (-7 : Int).sign)) ∧
    (Fits minInt ∧ Fits 1 ∧ (1 : Int) ≠ 0 ∧ minInt = minInt * 1 + 0 ∧ (0 : Int).natAbs < (1 : Int).natAbs) := by decide

theorem witness_DivmodfGivesTheFloorPair :
    (operands 5 0 0).b.toInt = 0 ∧
    ((operands minInt (-1) 0).a.toInt = -2 ^ 127 ∧ (operands minInt (-1) 0).b.toInt = -1) ∧
    ((operands minInt 1 0).b.toInt ≠ 0 ∧
      ¬((operands minInt 1 0).a.toInt = -2 ^ 127 ∧ (operands minInt 1 0).b.toInt = -1)) := by decide

/-- Each of the three commands, with a non-zero remainder in `R1`. -/
theorem witness_RemaindersFollowTheDivisor :
    (operands 7 (-2) 3).b.toInt ≠ 0 ∧ (operands 7 (-2) 3).c.toInt ≠ 0 ∧
    (∃ t, exec .divmodf (operands 7 (-2) 3) = .next t ∧ (-1#128) ∈ t.r1) ∧
    (∃ t, exec (.sdivf 0) (operands 7 (-2) 3) = .next t ∧ (-1#128) ∈ t.r1) ∧
    (∃ t, exec .dmdf (operands 7 (-2) 3) = .next t ∧ 1#128 ∈ t.r1) :=
  ⟨by decide, by decide, ⟨_, rfl, by decide⟩, ⟨_, rfl, by decide⟩, ⟨_, rfl, by decide⟩⟩

/-- Below a half, above, at a tie, on both sides of zero. -/
theorem witness_RoundIncrementFollowsTheTables :
    ((1 : Int) ≠ 0 ∧ (0 : Int) ≤ 0 ∧ (-1 : Int) < 0) ∧ 2 * (1 : Int).natAbs < (3 : Int).natAbs ∧
      (3 : Int).natAbs < 2 * (2 : Int).natAbs ∧ 2 * (1 : Int).natAbs = (2 : Int).natAbs ∧
      2 * (-1 : Int).natAbs = (-2 : Int).natAbs := by decide

theorem witness_RoundedValueIsRationalRounding : (-2 : Int) ≠ 0 := by decide

theorem witness_DivrGivesTheRoundedQuotient :
    (operands 1 0 0).b.toInt = 0 ∧
    ((operands minInt (-1) 0).a.toInt = -2 ^ 127 ∧ (operands minInt (-1) 0).b.toInt = -1) ∧
    ((operands maxInt (-2) 0).b.toInt ≠ 0 ∧
      ¬((operands maxInt (-2) 0).a.toInt = -2 ^ 127 ∧ (operands maxInt (-2) 0).b.toInt = -1)) := by decide

/-- Rows R22 (the floor quotient is 2^127 - 1 and is rounded up) and R18 (it stays). -/
theorem witness_SdivrGivesTheRoundedQuotientOrAbsent :
    38 < 39 ∧ (operands 1 0 0).b.toInt = 0 ∧ (operands 1 4 0).b.toInt ≠ 0 ∧
    (floorQuotient (68056473384187692692674921486353642291 * 10 ^ 1) 4 = 2 ^ 127 - 1 ∧
      roundIncrement .ceiling (2 ^ 127 - 1) 2 4 = 1) ∧
    (¬TooLarge (68056473384187692692674921486353642291 * 10 ^ 1) 4 ∧ roundIncrement .floor (2 ^ 127 - 1) 2 4 = 0) := by
  decide

/-- Rows T13 (absent in the floor stage), T11, and a product whose quotient 2^127 - 1 is rounded up. -/
theorem witness_MdtprGivesTheRoundedProductOrAbsent :
    38 < 39 ∧ TooLarge ((operands minInt 1 0).a.toInt * (operands minInt 1 0).b.toInt) (10 ^ 0) ∧
    ¬TooLarge ((operands maxInt 1 0).a.toInt * (operands maxInt 1 0).b.toInt) (10 ^ 0) ∧
    (∃ a b : Int, Fits a ∧ Fits b ∧ floorQuotient (a * b) (10 ^ 1) = 2 ^ 127 - 1 ∧
      roundIncrement .up (2 ^ 127 - 1) (floorRemainder (a * b) (10 ^ 1)) (10 ^ 1) = 1) :=
  ⟨by decide, by decide, by decide, 58669373607058355769547346108925553699, 29, by decide⟩

/-- Every spelling holds a digit. -/
theorem digit_mem_spell (n : Numeral) : ∃ d, digitByte d ∈ n.spell := by
  obtain ⟨sign, m, e⟩ := n
  cases m with
  | whole d ds => exact ⟨d, by simp [Numeral.spell, Mantissa.spell]⟩
  | pointed d ds frac => exact ⟨d, by simp [Numeral.spell, Mantissa.spell]⟩
  | fraction d ds => exact ⟨d, by simp [Numeral.spell, Mantissa.spell]⟩

/-- Rows X37 (-2^127), X36 (2^127), X22 (scale 19), X30 (scale 18), and `"x"`, which no numeral spells. -/
theorem witness_ParserClassifiesEveryText :
    (let n : Numeral := ⟨some true, .whole 1 (decimalDigits 38 70141183460469231731687303715884105728), none⟩;
      n.scale ≤ 18 ∧ Fits n.coefficient ∧ n.coefficient = -2 ^ 127) ∧
    (let n : Numeral := ⟨none, .whole 1 (decimalDigits 38 70141183460469231731687303715884105728), none⟩;
      ¬(n.scale ≤ 18 ∧ Fits n.coefficient)) ∧
    (let n : Numeral := ⟨none, .whole 1 [], some ⟨false, some true, 1, [9]⟩⟩;
      ¬(n.scale ≤ 18 ∧ Fits n.coefficient)) ∧
    (let n : Numeral := ⟨none, .pointed 0 [] (decimalDigits 18 0), none⟩;
      n.scale = 18 ∧ Fits n.coefficient) ∧
    ([0x78#8] : List Byte) ≠ [] ∧
    [0x78#8] ∉ ([[0x2B#8], [0x2D#8], [0x2E#8], [0x2B#8, 0x2E#8], [0x2D#8, 0x2E#8]] : List (List Byte)) ∧
    ∀ n : Numeral, n.spell ≠ [0x78#8] := by
  refine ⟨by decide, by decide, by decide, by decide, by decide, by decide, fun n h => ?_⟩
  obtain ⟨d, hd⟩ := digit_mem_spell n
  rw [h, List.mem_singleton] at hd
  revert d
  decide

theorem witness_BoundedRegistersSuffice : (List.replicate 65535 0x39#8).length ≤ 65535 := by
  rw [List.length_replicate]

theorem witness_FormattedPairParsesBack : Fits minInt ∧ Fits maxInt ∧ 18 ≤ 18 := by decide

/-- Rows X37 to X40 in kind: a success, and one text of each error kind; `TLEN` at 257, 256 being `TEXT_MAX`. -/
theorem witness_ParseDeliversTheClassification :
    State.reset.config.textMax < (257#16).toNat ∧ { withText [] with tlen := 257#16 }.config = State.reset.config ∧
    (∃ j, j < 1 ∧ Memory.read State.reset.txt j = none) ∧
    (∀ t ∈ ([[], [0x2E#8], [0x31#8, 0x65#8], [0x30#8, 0x65#8, 0x2D#8, 0x31#8, 0x39#8], [0x2E#8, 0x35#8]] :
        List (List Byte)), (withText t).tlen.toNat ≤ (withText t).config.textMax ∧ t.length = (withText t).tlen.toNat ∧
          ∀ j, (h : j < t.length) → Memory.read (withText t).txt j = some t[j]) ∧
    parseText [0x2E#8, 0x35#8] = .success 5 1 ∧ parseText [] = .error .emptyInput ∧
    parseText [0x2E#8] = .error .noDigitsFound ∧ parseText [0x31#8, 0x65#8] = .error .malformedSignOrExponent ∧
    parseText [0x30#8, 0x65#8, 0x2D#8, 0x31#8, 0x39#8] = .error .scaleExceedsMaximum := by decide

/-- `TLEN` = 3 with `TXT[2]` never written. -/
theorem witness_ParseOfAnUnwrittenByteStops :
    let s := State.mk 0#128 0#128 0#128 none none none Status.reset 3#16 (cells 0 [0x31#8, 0x32#8]) Config.standard [] []
    s.tlen.toNat ≤ s.config.textMax ∧ 2 < s.tlen.toNat ∧ Memory.read s.txt 2 = none ∧
      ∀ j, j < 2 → Memory.read s.txt j ≠ none := by decide

/-- Rows W35 and G8, where two causes apply, and a command to which none applies. -/
theorem witness_LowestApplicableCauseIsTaken :
    FirstCause (.sdivf 39) (operands 1 0 0) 2 ∧ FirstCause (.mulp10 39) (operands maxInt 0 0) 2 ∧
      (∀ code, ¬CauseApplies .divmodf (operands 7 2 0) code) ∧ ∃ t, exec .divmodf (operands 7 2 0) = .next t := by
  refine ⟨⟨.inl ⟨rfl, by decide⟩, ?_⟩, ⟨.inl ⟨rfl, by decide⟩, ?_⟩, ?_, _, rfl⟩
  · rintro c (⟨rfl, -⟩ | ⟨rfl, -⟩) <;> decide
  · rintro c (⟨rfl, -⟩ | ⟨rfl, -⟩) <;> decide
  · rintro c (⟨-, h⟩ | ⟨-, h⟩) <;> revert h <;> decide

theorem witness_CommandsChangeOnlyResultsAndStatus :
    (∃ t, exec .divmodf (operands 7 2 0) = .next t) ∧ ∃ t, exec (.tenpow 39) (operands 7 2 0) = .next t :=
  ⟨⟨_, rfl⟩, ⟨_, rfl⟩⟩

theorem witness_EveryCommandHasANextState :
    (Instr.dmdf = .parse → ∀ j, j < State.reset.tlen.toNat → Memory.read State.reset.txt j ≠ none) ∧
      (Instr.parse = .parse → ∀ j, j < (withText [0x31#8]).tlen.toNat →
        Memory.read (withText [0x31#8]).txt j ≠ none) := by decide

/-- Two states that differ in the registers `MULP10` does not read, and in a byte above `TLEN`. -/
theorem witness_OutcomeDependsOnNamedOperandsOnly :
    SameOperands (.mulp10 1) (operands 7 2 1) (operands 7 3 4) ∧
      (operands 7 2 1).status.fault = (operands 7 3 4).status.fault ∧
      SameOperands .parse (withText [0x31#8]) { withText [0x31#8, 0x32#8] with tlen := 1#16 } :=
  ⟨rfl, rfl, rfl, rfl, by decide⟩

theorem witness_SameCommandAgainGivesTheSameOutcome : ∃ t, exec (.divr .up) (operands 7 2 0) = .next t := ⟨_, rfl⟩

theorem witness_TextLinesLoadTheText :
    (List.replicate 256 0x39#8).length ≤ State.reset.config.textMax ∧ State.reset.config.textMax ≤ 65535 ∧
      (scripted (scriptText (List.replicate 256 0x39#8) ++ []) State.reset).script =
        scriptText (List.replicate 256 0x39#8) ++ [] :=
  ⟨by rw [List.length_replicate]; decide, by decide, rfl⟩

/-- One state with all results valid: a test that is met and a test that is not, each in its own script; `PERR = 0` is met
there; a `skip` past the end of the script. -/
theorem witness_IfSetChoosesOneGroup :
    ((scripted (scriptIfSet .v0 [.reset] [.readReg .r0] ++ [.readReg .r1]) allValid).script =
        scriptIfSet .v0 [.reset] [.readReg .r0] ++ [.readReg .r1] ∧ TestMet .v0 allValid.statusWord) ∧
    ((scripted (scriptIfSet .ovf [.reset] [.readReg .r0] ++ [.readReg .r1]) allValid).script =
        scriptIfSet .ovf [.reset] [.readReg .r0] ++ [.readReg .r1] ∧ ¬TestMet .ovf allValid.statusWord) ∧
    TestMet (.perrIs 0#3) allValid.statusWord ∧
    (scripted (.skip [HostAction.readReg .r0].length :: ([.readReg .r0] ++ [.readReg .r1])) allValid).script =
      .skip [HostAction.readReg .r0].length :: ([.readReg .r0] ++ [.readReg .r1]) ∧
    (scripted [.skip 2, .readReg .r0] allValid).script = .skip 2 :: [.readReg .r0] :=
  ⟨⟨rfl, by rw [TestMet]; decide⟩, ⟨rfl, by rw [TestMet]; decide⟩, by rw [TestMet]; decide, rfl, rfl⟩

theorem witness_MovLinesCopyAResult :
    allValid.r0 = some 150#128 ∧ allValid.r1 = some 25#128 ∧ allValid.rsc = some 2#8 ∧
      ∀ r ∈ [OperandReg.a, .b, .c], ∀ h ∈ [HostReg.r0, .r1, .rsc],
        (scripted (scriptMov r h ++ [.readReg .status]) allValid).script = scriptMov r h ++ [.readReg .status] := by
  decide

end Sys2Proof.Tests
end

section
/-! PROOFS. The floor convention of the remainders delivered (00_scope.md R16): the floor remainder lies on the divisor's
side of zero, `WIDE_FLOOR` gives it (41_wide_arithmetic.md R130), and the three commands with a remainder put it into `R1`. -/

namespace Sys2Proof.Machine

open Sys2Proof.Reference

/-! ### The floor remainder -/

theorem floorRemainder_eq_fmod (n y : Int) : floorRemainder n y = n.fmod y := by
  rw [floorRemainder, floorQuotient, Int.fmod_def, mul_comm]

/-- The range of a floor remainder: between zero and the divisor, the divisor excluded (R16). -/
theorem floorRemainder_range (n : Int) {y : Int} (hy : y ≠ 0) :
    0 < y ∧ 0 ≤ floorRemainder n y ∧ floorRemainder n y < y ∨
      y < 0 ∧ y < floorRemainder n y ∧ floorRemainder n y ≤ 0 := by
  rw [floorRemainder_eq_fmod]
  rcases hy.lt_or_gt with hneg | hpos
  · have hflip : (-n).fmod (-y) = -n.fmod y := Int.neg_fmod_neg n y
    have h0 := Int.fmod_nonneg_of_pos (-n) (neg_pos.mpr hneg)
    have h1 := Int.fmod_lt_of_pos (-n) (neg_pos.mpr hneg)
    exact .inr ⟨hneg, by omega, by omega⟩
  · exact .inl ⟨hpos, Int.fmod_nonneg_of_pos n hpos, Int.fmod_lt_of_pos n hpos⟩

theorem natAbs_floorRemainder_lt (n : Int) {y : Int} (hy : y ≠ 0) : (floorRemainder n y).natAbs < y.natAbs := by
  have := floorRemainder_range n hy
  omega

theorem sign_floorRemainder (n : Int) {y : Int} (hy : y ≠ 0) (hr : floorRemainder n y ≠ 0) :
    (floorRemainder n y).sign = y.sign := by
  rcases floorRemainder_range n hy with ⟨hpos, h0, -⟩ | ⟨hneg, -, h0⟩
  · rw [Int.sign_eq_one_of_pos hpos, Int.sign_eq_one_of_pos (by omega)]
  · rw [Int.sign_eq_neg_one_of_neg hneg, Int.sign_eq_neg_one_of_neg (by omega)]

/-- A remainder by a word fits a word, for its magnitude is below the word's. -/
theorem floorRemainder_inI128 (n : Int) {y : Word} (hy : signedValue y ≠ 0) :
    InI128 (floorRemainder n (signedValue y)) := by
  have hlt := natAbs_floorRemainder_lt n hy
  have hmag := magnitude_le y
  rw [toNat_magnitude] at hmag
  simp only [InI128, i128Min, i128Max]
  omega

/-! ### `WIDE_FLOOR` gives the floor pair -/

/-- `WIDE_FLOOR`'s test on the two words of the quotient is the absent criterion of R130 on its value. -/
theorem wideDivRem_tooLarge_iff (hi lo d : Word) :
    ((wideDivRem hi lo d).qhi ≠ 0#128 ∨ i128Max < ((wideDivRem hi lo d).qlo.toNat : Int)) ↔
      2 ^ 127 - 1 < wideValue hi lo / d.toNat := by
  have hlt : wideValue hi lo / d.toNat < 2 ^ 256 := (Nat.div_le_self _ _).trans_lt (wideValue_lt hi lo)
  simp only [wideDivRem, ne_eq, ← BitVec.toNat_inj, BitVec.toNat_ofNat, i128Max]
  generalize wideValue hi lo / d.toNat = q at hlt ⊢
  omega

theorem toNat_wideDivRem_qlo {hi lo d : Word} (h : ¬2 ^ 127 - 1 < wideValue hi lo / d.toNat) :
    (wideDivRem hi lo d).qlo.toNat = wideValue hi lo / d.toNat := by
  simp only [wideDivRem, BitVec.toNat_ofNat]
  exact Nat.mod_eq_of_lt (by omega)

theorem toNat_wideDivRem_rem {hi lo d : Word} (hd : 0 < d.toNat) :
    (wideDivRem hi lo d).rem.toNat = wideValue hi lo % d.toNat := by
  have hlt := Nat.mod_lt (wideValue hi lo) hd
  simp only [wideDivRem, BitVec.toNat_ofNat]
  exact Nat.mod_eq_of_lt (hlt.trans d.isLt)

/-- `WIDE_FLOOR` said once (R130): absent when the magnitude quotient is too large, else the floor pair of the signed
dividend. -/
theorem wideFloor_eq (hi lo : Word) (negN : Bool) {y : Word} (hy : signedValue y ≠ 0) :
    let n := withSign negN (wideValue hi lo)
    wideFloor hi lo negN y =
      if TooLarge n (signedValue y) then none
      else some ⟨floorQuotient n (signedValue y), floorRemainder n (signedValue y)⟩ := by
  intro n
  have habs : n.natAbs = wideValue hi lo := by
    simp only [n, withSign]
    split_ifs <;> omega
  have hpos := magnitude_pos hy
  have hdiv : (wideValue hi lo : Int) =
      (wideValue hi lo / (magnitude y).toNat : Nat) * ((magnitude y).toNat : Int) +
        (wideValue hi lo % (magnitude y).toNat : Nat) := by
    exact_mod_cast (Nat.div_add_mod' _ _).symm
  simp only [TooLarge, habs, ← toNat_magnitude, wideFloor, wideDivRem_tooLarge_iff]
  split_ifs with hbig
  · rfl
  · have hadj := floorAdjust_eq negN (isNegative y) (Int.natCast_nonneg _)
      (Int.ofNat_lt.mpr (Nat.mod_lt (wideValue hi lo) hpos)) (qu := (wideValue hi lo / (magnitude y).toNat : Nat))
    rw [toNat_wideDivRem_qlo hbig, toNat_wideDivRem_rem hpos, hadj, ← hdiv, ← signedValue_eq_magnitude]
    rfl

/-! ### What `R1` holds after a command with a remainder -/

/-- `v` is the pattern of the floor remainder of some dividend by the word `y`. -/
def IsFloorRemainderBy (y v : Word) : Prop := ∃ n, v = bits128 (floorRemainder n (signedValue y))

/-- R16 for one delivered word: the pattern reads back as the remainder, whose size and sign follow the divisor. -/
theorem IsFloorRemainderBy.follows {y v : Word} (h : IsFloorRemainderBy y v) (hy : y.toInt ≠ 0) :
    v.toInt.natAbs < y.toInt.natAbs ∧ (v.toInt ≠ 0 → v.toInt.sign = y.toInt.sign) := by
  obtain ⟨n, rfl⟩ := h
  rw [toInt_bits128 (floorRemainder_inI128 n hy)]
  exact ⟨natAbs_floorRemainder_lt n hy, sign_floorRemainder n hy⟩

theorem deliverPair_wideFloor_r1 {hi lo : Word} {negN : Bool} {y : Word} (hy : signedValue y ≠ 0) (s : State) :
    ∀ v ∈ (deliverPair (wideFloor hi lo negN y) s).r1, IsFloorRemainderBy y v := by
  intro v hv
  rw [wideFloor_eq hi lo negN hy] at hv
  split_ifs at hv with hbig
  · simp [deliverPair, absent] at hv
  · simp only [deliverPair, presentTwo, complete_r1, Option.mem_some_iff] at hv
    exact ⟨_, hv.symm⟩

theorem execSdivf_r1 {p : Nat} {s t : State} (h : execSdivf p s = .next t) : ∀ v ∈ t.r1, IsFloorRemainderBy s.b v := by
  unfold execSdivf at h
  split_ifs at h with hp hy <;> cases h
  · simp
  · simp
  · exact deliverPair_wideFloor_r1 hy s

theorem execDmdf_r1 {s t : State} (h : execDmdf s = .next t) : ∀ v ∈ t.r1, IsFloorRemainderBy s.c v := by
  unfold execDmdf at h
  split_ifs at h with hy hneg <;> cases h
  · simp
  · simp
  · exact deliverPair_wideFloor_r1 hy s

theorem execDivmodf_r1 {s t : State} (h : execDivmodf s = .next t) : ∀ v ∈ t.r1, IsFloorRemainderBy s.b v := by
  unfold execDivmodf at h
  split_ifs at h with hy hover <;> cases h
  · simp
  · simp
  · intro v hv
    rw [floorPairOf_eq hy] at hv
    simp only [presentTwo, complete_r1, Option.mem_some_iff] at hv
    exact ⟨signedValue s.a, hv.symm⟩

/-- Settles O40: each of the three commands puts the floor remainder of some dividend into `R1`, or leaves it invalid. -/
theorem remaindersFollowTheDivisor : Obligations.RemaindersFollowTheDivisor := by
  intro i s t y hcmd hy h r hr
  have hrem : IsFloorRemainderBy y r := by
    rcases hcmd with ⟨p, rfl, rfl⟩ | ⟨rfl, rfl⟩ | ⟨rfl, rfl⟩
    · exact execSdivf_r1 h r hr
    · exact execDmdf_r1 h r hr
    · exact execDivmodf_r1 h r hr
  exact hrem.follows hy

end Sys2Proof.Machine
end

section
/-! SUPPORT and PROOF. The values after reset (10_state.md R32). -/

namespace Sys2Proof.Machine

/-- The `STATUS` word is zero as a whole: no result is valid, and every stored bit and field is zero. -/
@[simp] theorem statusWord_reset : State.reset.statusWord = 0#32 := by decide

@[simp] theorem faultOutput_reset : State.reset.faultOutput = false := rfl

/-- Settles O12: the registers by the definition of the reset state, the `STATUS` word by its value after reset, and the
text because the buffer is empty, so that no address is listed. -/
theorem resetStateHoldsTheResetValues : Obligations.ResetStateHoldsTheResetValues :=
  ⟨rfl, rfl, rfl, rfl, rfl, rfl, statusWord_reset, rfl, Memory.read_nil, faultOutput_reset⟩

end Sys2Proof.Machine
end

section
/-! PROOF. Which words select a row (30_encoding.md R75): decoding answers a command of a row exactly on the words that
pass the row's match and mask and, where the command takes a mode, have one of R76. -/

namespace Sys2Proof

/-- The command built for a row is a command of that row, so rows with equal commands are equal. -/
@[simp] theorem opcode_commandOf (o : Opcode) (p p2 : Nat) (m : RoundingMode) : (commandOf o p p2 m).opcode = o := by
  cases o <;> rfl

theorem exists_ofNumber_iff (n : Nat) : (∃ m, RoundingMode.ofNumber n = some m) ↔ n ≤ 8 := by
  constructor
  · rintro ⟨m, hm⟩
    have hn := (ofNumber_eq_some_iff n m).mp hm
    have hlt := number_lt m
    omega
  · intro hn
    interval_cases n <;> exact ⟨_, rfl⟩

/-- Step 3 of R80 rejects a word only for its mode bits, and only in a row that takes a mode. -/
theorem exists_modeOf_iff (o : Opcode) (w : CmdWord) :
    (∃ m, modeOf o w = some m) ↔ (o.takesMode = true → (modeField w).toNat ≤ 8) := by
  unfold modeOf
  split
  next h => simp [h, exists_ofNumber_iff]
  next h => simp [h]

/-- R75 for any row. -/
theorem decode_row_iff (o : Opcode) (w : CmdWord) :
    (∃ p p2 m, decode w = .command (commandOf o p p2 m)) ↔
      w &&& o.mask = o.matchWord ∧ (o.takesMode = true → (modeField w).toNat ≤ 8) := by
  rw [← exists_modeOf_iff]
  constructor
  · rintro ⟨p, p2, m, h⟩
    obtain ⟨o', m', htest, hmode, hi⟩ := (decode_eq_command_iff w _).mp h
    obtain rfl : o = o' := by simpa using congrArg Instr.opcode hi
    exact ⟨htest, m', hmode⟩
  · rintro ⟨htest, m, hmode⟩
    exact ⟨_, _, m, (decode_eq_command_iff w _).mpr ⟨o, m, htest, hmode, rfl⟩⟩

/-- Settles O4: each clause is the row rule `decode_row_iff` read at one row of the table, in the order of R75. -/
theorem wordSelectsRowByMatchAndMask : Obligations.WordSelectsRowByMatchAndMask := by
  intro w
  -- A row without a mode drops the quantifier over modes, which needs that there is one.
  have someMode : Nonempty RoundingMode := ⟨.floor⟩
  have rows := fun o (_ : o ∈ Opcode.all) => decode_row_iff o w
  simpa [Opcode.all, commandOf, Opcode.mask, Opcode.matchWord, Opcode.takesMode, modeField] using rows

end Sys2Proof
end

section
/-! SUPPORT. How a command ends, in the words of the statements: fault entry by the code of its cause (60_exceptions.md
R201, R205) and completion by the values delivered and the byte `STATUS[7:0]` (10_state.md R23, R26). -/

namespace Sys2Proof.Machine

open Sys2Proof.Reference

/-- The opcode field of a command's word is that of its row (30_encoding.md R75). -/
theorem opField_encode (i : Instr) : opField (encode i) = i.opcode.number := (Laws.RowTest.all_rows i).2

/-! ### The two parts of `STATUS` -/

/-- `STATUS[31:8]`: zero bits, `FCAUSE`, `FAULT` (R25). -/
def State.statusHigh (s : State) : BitVec 24 :=
  0#19 ++ fcauseField s.status.fault ++ BitVec.ofBool s.status.fault.isSome

/-- `STATUS[7:0]`: `PERR`, `OVFB`, `OVF`, `VS`, `V1`, `V0` (R25). -/
def State.statusLow (s : State) : BitVec 8 :=
  perrField s.status.perr ++ BitVec.ofBool s.status.ovfb ++ BitVec.ofBool s.status.ovf ++ BitVec.ofBool s.rsc.isSome ++
    BitVec.ofBool s.r1.isSome ++ BitVec.ofBool s.r0.isSome

theorem append_flags_assoc (h : BitVec 24) (k : BitVec 3) (b4 b3 b2 b1 b0 : BitVec 1) :
    (h ++ k ++ b4 ++ b3 ++ b2 ++ b1 ++ b0 : BitVec 32) = h ++ (k ++ b4 ++ b3 ++ b2 ++ b1 ++ b0 : BitVec 8) := by
  simp only [BitVec.append_assoc, BitVec.cast_eq]

theorem statusWord_eq_append (s : State) : s.statusWord = s.statusHigh ++ s.statusLow := append_flags_assoc ..

theorem extractLsb'_low_statusWord (s : State) : s.statusWord.extractLsb' 0 8 = s.statusLow := by
  rw [statusWord_eq_append]
  exact BitVec.extractLsb'_append_eq_right

theorem extractLsb'_high_statusWord (s : State) : s.statusWord.extractLsb' 8 24 = s.statusHigh := by
  rw [statusWord_eq_append]
  exact BitVec.extractLsb'_append_eq_left

/-- A completion leaves the fault bits as they were (R26). -/
theorem statusHigh_complete (r0 r1 : Option Word) (rsc : Option Byte) (ovf ovfb : Bool) (perr : Option ParseError)
    (s : State) : (complete r0 r1 rsc ovf ovfb perr s).statusHigh = s.statusHigh := rfl

/-- The byte a completion writes depends on its flags and on which results it makes valid (R26). -/
theorem statusLow_complete (r0 r1 : Option Word) (rsc : Option Byte) (ovf ovfb : Bool) (perr : Option ParseError)
    (s : State) :
    (complete r0 r1 rsc ovf ovfb perr s).statusLow =
      perrField perr ++ BitVec.ofBool ovfb ++ BitVec.ofBool ovf ++ BitVec.ofBool rsc.isSome ++
        BitVec.ofBool r1.isSome ++ BitVec.ofBool r0.isSome := rfl

/-! ### Fault entry -/

/-- `STATUS` after a fault, computed from the code of its cause (R205). -/
theorem statusWord_raiseFault_ofNat (c : FaultCause) (s : State) :
    (raiseFault c s).statusWord = BitVec.ofNat 32 (0x100 + 0x200 * c.code.toNat) := by
  rw [statusWord_raiseFault]
  cases c <;> decide

theorem faultsWith_raiseFault (c : FaultCause) (s : State) : FaultsWith s (raiseFault c s) c.code.toNat :=
  ⟨rfl, rfl, rfl, statusWord_raiseFault_ofNat c s, rfl, by simp [Untouched]⟩

/-- A command that raises a cause takes the fault with the code of that cause. -/
theorem execFaults_of_raiseFault {i : Instr} {s : State} {c : FaultCause} (h : exec i s = .next (raiseFault c s)) :
    ExecFaults i s c.code.toNat := ⟨_, h, faultsWith_raiseFault c s⟩

/-! ### Completion -/

theorem completes_complete (r0 r1 : Option Word) (rsc : Option Byte) (ovf ovfb : Bool) (perr : Option ParseError)
    (s : State) :
    Completes s (complete r0 r1 rsc ovf ovfb perr s) (r0.map BitVec.toInt) (r1.map BitVec.toInt) (rsc.map BitVec.toNat)
      (complete r0 r1 rsc ovf ovfb perr s).statusLow := by
  refine ⟨rfl, rfl, rfl, extractLsb'_low_statusWord _, ?_, by simp [Untouched]⟩
  rw [extractLsb'_high_statusWord, extractLsb'_high_statusWord, statusHigh_complete]

/-- A command that ends by `complete` completes with the values of the results it writes. -/
theorem execCompletes_of_complete {i : Instr} {s : State} {r0 r1 : Option Word} {rsc : Option Byte} {ovf ovfb : Bool}
    {perr : Option ParseError} (h : exec i s = .next (complete r0 r1 rsc ovf ovfb perr s)) :
    ExecCompletes i s (r0.map BitVec.toInt) (r1.map BitVec.toInt) (rsc.map BitVec.toNat)
      (complete r0 r1 rsc ovf ovfb perr s).statusLow := ⟨_, h, completes_complete ..⟩

/-- `present(R0)`: the value alone, `V0` alone (R12). -/
theorem execCompletes_of_presentOne {i : Instr} {s : State} {v : Word} {z : Int} (hv : v.toInt = z)
    (h : exec i s = .next (presentOne v s)) : ExecCompletes i s (some z) none none 0x01#8 := by
  have hlow : (presentOne v s).statusLow = 0x01#8 := by
    rw [presentOne_eq, statusLow_complete]
    simp only [Option.isSome_some]
    decide
  rw [← hv, ← hlow]
  exact execCompletes_of_complete h

/-- `absent`: nothing valid, `OVF` alone (R12). -/
theorem execAbsent_of_absent {i : Instr} {s : State} (h : exec i s = .next (absent s)) : ExecAbsent i s := by
  have hlow : (absent s).statusLow = 0x08#8 := by
    rw [absent_eq, statusLow_complete]
    decide
  rw [ExecAbsent, ← hlow]
  exact execCompletes_of_complete h

/-! ### The signed range -/

/-- The range the model tests is that of R18. -/
theorem inI128_iff_fits (z : Int) : InI128 z ↔ Fits z := by
  norm_num [InI128, Fits]

theorem toInt_bits128_of_fits {z : Int} (h : Fits z) : (bits128 z).toInt = z :=
  toInt_bits128 ((inI128_iff_fits z).mpr h)

end Sys2Proof.Machine
end

section
/-! PROOFS. The power-of-ten scaler (40_power_of_ten.md R100 to R106): the table, the index check that six commands share,
the product of a coefficient with a power of ten, and the two coefficients at the larger scale. -/

namespace Sys2Proof.Machine

open Sys2Proof.Reference

/-! ### The table and the index check -/

/-- Settles O22: the 39 entries, one by one. -/
theorem tableHoldsThePowersOfTen : Obligations.TableHoldsThePowersOfTen := by
  have entries : ∀ k < 39, (tenEntry k).toNat = 10 ^ k := by decide
  exact ⟨rfl, fun n hn => entries n (by omega)⟩

/-- The entries stay below the sign bit, so the signed reading of an entry is the power too. -/
theorem toInt_tenEntry {n : Nat} (hn : n ≤ 38) : (tenEntry n).toInt = 10 ^ n := by
  have hval : (tenEntry n).toNat = 10 ^ n := tableHoldsThePowersOfTen.2 n hn
  have hle : 10 ^ n ≤ 10 ^ 38 := Nat.pow_le_pow_right (by norm_num) hn
  rw [BitVec.toInt_eq_toNat_of_lt (by omega), hval]
  norm_cast

/-- The index check comes before anything the registers hold (R106). -/
theorem exec_of_maxPow_lt {n : Nat} {m : RoundingMode} {i : Instr} (hn : maxPow < n)
    (hi : i ∈ [.tenpow n, .mulp10 n, .cmulp10 n, .sdivf n, .sdivr n m, .mdtpr n m]) (s : State) :
    exec i s = .next (raiseFault .powRange s) := by
  simp only [List.mem_cons, List.not_mem_nil, or_false] at hi
  rcases hi with rfl | rfl | rfl | rfl | rfl | rfl <;> exact if_pos hn

/-- Settles O26: all six commands test the index first. -/
theorem powerIndexAbove38Faults : Obligations.PowerIndexAbove38Faults :=
  fun _ _ s _ hn hi => execFaults_of_raiseFault (exec_of_maxPow_lt hn hi s)

/-- Settles O23: the entry of the table, once the index is checked. -/
theorem tenpowGivesThePower : Obligations.TenpowGivesThePower := by
  intro n s
  refine ⟨opField_encode _, fun hn => powerIndexAbove38Faults n .floor s _ hn (by simp), fun hn => ?_⟩
  exact execCompletes_of_presentOne (toInt_tenEntry hn) (if_neg (Nat.not_lt.mpr hn))

/-! ### A coefficient times a power of ten -/

/-- R102 with the index checked: the range test on the exact product decides. -/
theorem exec_mulp10_of_le {n : Nat} (hn : n ≤ 38) (s : State) :
    exec (.mulp10 n) s =
      if Fits (s.a.toInt * 10 ^ n) then .next (presentOne (bits128 (s.a.toInt * 10 ^ n)) s)
      else .next (raiseFault .uncheckedOverflow s) := by
  simp only [exec, execMulp10, if_neg (show ¬maxPow < n from Nat.not_lt.mpr hn), scaledBy_eq, signedValue,
    inI128_iff_fits]

/-- R103 with the index checked: the same test, and an absent result instead of the fault. -/
theorem exec_cmulp10_of_le {n : Nat} (hn : n ≤ 38) (s : State) :
    exec (.cmulp10 n) s =
      if Fits (s.a.toInt * 10 ^ n) then .next (presentOne (bits128 (s.a.toInt * 10 ^ n)) s)
      else .next (absent s) := by
  simp only [exec, execCmulp10, if_neg (show ¬maxPow < n from Nat.not_lt.mpr hn), scaledBy_eq, signedValue,
    inI128_iff_fits]

/-- Settles O24: the index check, then the two sides of the range test. -/
theorem mulp10GivesTheProductOrFaults : Obligations.Mulp10GivesTheProductOrFaults := by
  intro n s z
  refine ⟨opField_encode _, fun hn => powerIndexAbove38Faults n .floor s _ hn (by simp), fun hn hfit => ?_,
    fun hn hfit => ?_⟩
  · exact execFaults_of_raiseFault ((exec_mulp10_of_le hn s).trans (if_neg hfit))
  · exact execCompletes_of_presentOne (toInt_bits128_of_fits hfit) ((exec_mulp10_of_le hn s).trans (if_pos hfit))

/-- Settles O25: as for `MULP10`, with the absent result where the product does not fit. -/
theorem cmulp10GivesTheProductOrAbsent : Obligations.Cmulp10GivesTheProductOrAbsent := by
  intro n s z
  refine ⟨opField_encode _, fun hn => powerIndexAbove38Faults n .floor s _ hn (by simp), fun hn hfit => ?_,
    fun hn hfit => ?_⟩
  · exact execAbsent_of_absent ((exec_cmulp10_of_le hn s).trans (if_neg hfit))
  · exact execCompletes_of_presentOne (toInt_bits128_of_fits hfit) ((exec_cmulp10_of_le hn s).trans (if_pos hfit))

/-! ### Two coefficients at the larger scale -/

section Scales

variable {s1 s2 : Nat}

/-- The scale check of `ADJ` and `CADJ` (R104, R105). -/
theorem exec_of_maxScale_lt {i : Instr} (h : maxScale < s1 ∨ maxScale < s2) (hi : i = .adj s1 s2 ∨ i = .cadj s1 s2)
    (s : State) : exec i s = .next (raiseFault .scaleRange s) := by
  rcases hi with rfl | rfl <;> exact if_pos h

theorem scales_in_range (h1 : s1 ≤ 18) (h2 : s2 ≤ 18) : ¬(maxScale < s1 ∨ maxScale < s2) :=
  not_or.mpr ⟨Nat.not_lt.mpr h1, Nat.not_lt.mpr h2⟩

theorem map_sharedScale (h1 : s1 ≤ 18) (h2 : s2 ≤ 18) :
    (some (sharedScale s1 s2)).map BitVec.toNat = some (max s1 s2) :=
  congrArg some (toNat_sharedScale h1 h2)

/-- R104 with the scales checked: the range test on both coefficients decides. -/
theorem exec_adj_of_le (h1 : s1 ≤ 18) (h2 : s2 ≤ 18) (s : State) :
    exec (.adj s1 s2) s =
      if Fits (s.a.toInt * 10 ^ (max s1 s2 - s1)) ∧ Fits (s.b.toInt * 10 ^ (max s1 s2 - s2)) then
        .next (presentPairAtScale (bits128 (s.a.toInt * 10 ^ (max s1 s2 - s1)))
          (bits128 (s.b.toInt * 10 ^ (max s1 s2 - s2))) (sharedScale s1 s2) s)
      else .next (raiseFault .uncheckedOverflow s) := by
  simp only [exec, execAdj, if_neg (scales_in_range h1 h2), adjustedFirst_eq, adjustedSecond_eq, signedValue,
    inI128_iff_fits]

theorem checkedSide_of_fits {z : Int} (h : Fits z) : checkedSide z = some (bits128 z) :=
  if_pos ((inI128_iff_fits z).mpr h)

theorem checkedSide_of_not_fits {z : Int} (h : ¬Fits z) : checkedSide z = none :=
  if_neg fun hin => h ((inI128_iff_fits z).mp hin)

/-- One of the two exponents is zero, so a coefficient that does not fit leaves the other side in range (R105). -/
theorem fits_or_fits (c1 c2 : Word) (s1 s2 : Nat) :
    Fits (c1.toInt * 10 ^ (max s1 s2 - s1)) ∨ Fits (c2.toInt * 10 ^ (max s1 s2 - s2)) := by
  have h := adjusted_one_inI128 c1 c2 s1 s2
  rwa [adjustedFirst_eq, adjustedSecond_eq, inI128_iff_fits, inI128_iff_fits] at h

/-- A completion at the larger scale: each side's validity bit or its overflow bit is set, and `VS` always (R104, R105). -/
theorem execCompletes_of_sides {i : Instr} {s : State} {o1 o2 : Option Word} (h1 : s1 ≤ 18) (h2 : s2 ≤ 18)
    (h : exec i s = .next (complete o1 o2 (some (sharedScale s1 s2)) o1.isNone o2.isNone none s)) :
    ExecCompletes i s (o1.map BitVec.toInt) (o2.map BitVec.toInt) (some (max s1 s2))
      (0#3 ++ BitVec.ofBool o2.isNone ++ BitVec.ofBool o1.isNone ++ 1#1 ++ BitVec.ofBool o2.isSome ++
        BitVec.ofBool o1.isSome) := by
  have hc := execCompletes_of_complete h
  rwa [map_sharedScale h1 h2] at hc

/-- R105 with the scales checked: each side is delivered as `checkedSide` reports it. -/
theorem execCompletes_cadj_of_le (h1 : s1 ≤ 18) (h2 : s2 ≤ 18) {s : State} {o1 o2 : Option Word}
    (ho1 : checkedSide (s.a.toInt * 10 ^ (max s1 s2 - s1)) = o1)
    (ho2 : checkedSide (s.b.toInt * 10 ^ (max s1 s2 - s2)) = o2) :
    ExecCompletes (.cadj s1 s2) s (o1.map BitVec.toInt) (o2.map BitVec.toInt) (some (max s1 s2))
      (0#3 ++ BitVec.ofBool o2.isNone ++ BitVec.ofBool o1.isNone ++ 1#1 ++ BitVec.ofBool o2.isSome ++
        BitVec.ofBool o1.isSome) := by
  refine execCompletes_of_sides h1 h2 ?_
  simp only [exec, execCadj, if_neg (scales_in_range h1 h2), adjustedFirst_eq, adjustedSecond_eq, signedValue, ho1, ho2]

end Scales

/-- Settles O27: the scale check, then the range test on both coefficients. -/
theorem adjGivesBothCoefficientsAtTheLargerScale : Obligations.AdjGivesBothCoefficientsAtTheLargerScale := by
  intro s1 s2 s z1 z2
  refine ⟨opField_encode _, fun h => execFaults_of_raiseFault (exec_of_maxScale_lt h (.inl rfl) s),
    fun h1 h2 hfit => ?_, fun h1 h2 hz1 hz2 => ?_⟩
  · exact execFaults_of_raiseFault ((exec_adj_of_le h1 h2 s).trans (if_neg hfit))
  · have hc := execCompletes_of_sides h1 h2 (o1 := some (bits128 z1)) (o2 := some (bits128 z2))
      ((exec_adj_of_le h1 h2 s).trans (if_pos ⟨hz1, hz2⟩))
    simpa [toInt_bits128_of_fits hz1, toInt_bits128_of_fits hz2] using hc

/-- Settles O28: the scale check, then each side as it is reported; a side that does not fit leaves the other in range. -/
theorem cadjReportsEachSide : Obligations.CadjReportsEachSide := by
  intro s1 s2 s
  dsimp only
  have one := fits_or_fits s.a s.b s1 s2
  refine ⟨opField_encode _, fun h => execFaults_of_raiseFault (exec_of_maxScale_lt h (.inr rfl) s),
    fun h1 h2 hz1 hz2 => ?_, fun h1 h2 hz1 => ?_, fun h1 h2 hz2 => ?_⟩
  · simpa [toInt_bits128_of_fits hz1, toInt_bits128_of_fits hz2] using
      execCompletes_cadj_of_le h1 h2 (checkedSide_of_fits hz1) (checkedSide_of_fits hz2)
  · have hz2 := one.resolve_left hz1
    simpa [toInt_bits128_of_fits hz2] using
      execCompletes_cadj_of_le h1 h2 (checkedSide_of_not_fits hz1) (checkedSide_of_fits hz2)
  · have hz1 := one.resolve_right hz2
    simpa [toInt_bits128_of_fits hz1] using
      execCompletes_cadj_of_le h1 h2 (checkedSide_of_fits hz1) (checkedSide_of_not_fits hz2)

end Sys2Proof.Machine
end

section
/-! PROOFS. The wide units and the composites `SDIVF` and `DMDF` (41_wide_arithmetic.md R120, R122, R131, R132): the pair of
the multiplier, the quotient words of the divider, the signed dividends the composites form, and how a floor pair is
delivered. -/

namespace Sys2Proof.Machine

open Sys2Proof.Reference

/-! ### The exact units -/

/-- The two words of a number below 2^256 are the whole number, so neither unit loses a bit in its pair of words. -/
theorem wideValue_words {n : Nat} (h : n < 2 ^ 256) :
    wideValue (BitVec.ofNat 128 (n / 2 ^ 128)) (BitVec.ofNat 128 n) = n := by
  have hhi : n / 2 ^ 128 < 2 ^ 128 := Nat.div_lt_of_lt_mul (by rwa [← pow_add])
  rw [wideValue, BitVec.toNat_ofNat, BitVec.toNat_ofNat, Nat.mod_eq_of_lt hhi]
  exact Nat.div_add_mod' n (2 ^ 128)

/-- Settles O29: the product of two 128-bit words is below 2^256. -/
theorem wideProductIsExact : Obligations.WideProductIsExact :=
  fun a b2 => wideValue_words ((Nat.mul_lt_mul'' a.isLt b2.isLt).trans_eq (by norm_num))

/-- The quotient as two words (R122); a quotient is no larger than its dividend. -/
theorem wideValue_wideDivRem (hi lo d : Word) :
    wideValue (wideDivRem hi lo d).qhi (wideDivRem hi lo d).qlo = wideValue hi lo / d.toNat :=
  wideValue_words ((Nat.div_le_self _ _).trans_lt (wideValue_lt hi lo))

/-- Settles O30: the two words are the quotient, and the remainder, below the divisor, fits one word. -/
theorem wideQuotientIsExact : Obligations.WideQuotientIsExact := by
  intro hi lo d hd
  have hpos : 0 < d.toNat := Nat.pos_of_ne_zero fun h0 => hd (BitVec.eq_of_toNat_eq h0)
  simp only [wideValue_wideDivRem, toNat_wideDivRem_rem hpos]
  exact ⟨trivial, trivial, (Nat.div_add_mod' _ _).symm, Nat.mod_lt _ hpos⟩

/-! ### The signed dividends -/

/-- `signedValue_eq_magnitude` in the terms of the signed reading and of `withSign`. -/
theorem toInt_eq_withSign (v : Word) : v.toInt = withSign (isNegative v) (magnitude v).toNat :=
  signedValue_eq_magnitude v

theorem withSign_mul (neg neg' : Bool) (m m' : Nat) :
    withSign (neg != neg') (m * m') = withSign neg m * withSign neg' m' := by
  cases neg <;> cases neg' <;> simp [withSign]

/-- The dividend of `SDIVF` (R131): the sign of `x` on the product of its magnitude with the entry of the table. -/
theorem withSign_wideMul_tenEntry (x : Word) {p : Nat} (hp : p ≤ 38) :
    withSign (isNegative x) (wideValue (wideMul (magnitude x) (tenEntry p)).1 (wideMul (magnitude x) (tenEntry p)).2) =
      x.toInt * 10 ^ p := by
  rw [wideProductIsExact, tableHoldsThePowersOfTen.2 p hp, toInt_eq_withSign]
  cases isNegative x <;> simp [withSign]

/-- The dividend of `DMDF` (R132): a zero factor makes the product zero, which has no sign, and otherwise the signs of the
factors decide. -/
theorem withSign_wideMul_magnitude (x1 x2 : Word) :
    withSign (productNegative x1 x2)
        (wideValue (wideMul (magnitude x1) (magnitude x2)).1 (wideMul (magnitude x1) (magnitude x2)).2) =
      x1.toInt * x2.toInt := by
  rw [wideProductIsExact]
  by_cases hz : x1 = 0#128 ∨ x2 = 0#128
  · rcases hz with rfl | rfl <;> simp [withSign, productNegative, toNat_magnitude, signedValue]
  · obtain ⟨h1, h2⟩ := not_or.mp hz
    have hsign : productNegative x1 x2 = (isNegative x1 != isNegative x2) := by
      rw [productNegative, bne_iff_ne.mpr h1, bne_iff_ne.mpr h2, Bool.and_true, Bool.and_true]
    rw [hsign, withSign_mul, ← toInt_eq_withSign, ← toInt_eq_withSign]

/-! ### Delivering a floor pair -/

/-- While the magnitude quotient is at most 2^127 - 1, rounding down leaves the quotient in the signed range (R130). -/
theorem fits_floorQuotient {n y : Int} (hy : y ≠ 0) (h : ¬TooLarge n y) : Fits (floorQuotient n y) := by
  have hmul : n.natAbs < 2 ^ 127 * y.natAbs :=
    (Nat.div_lt_iff_lt_mul (Int.natAbs_pos.mpr hy)).mp (by omega)
  have ofPos : ∀ {m d : Int}, 0 < d → m.natAbs < 2 ^ 127 * d.natAbs → Fits (m.fdiv d) := by
    intro m d hd hm
    rw [Int.fdiv_eq_ediv_of_nonneg _ hd.le]
    have hlt := (Int.ediv_lt_iff_lt_mul hd).mpr (show m < 2 ^ 127 * d by omega)
    exact ⟨(Int.le_ediv_iff_mul_le hd).mpr (by omega), Int.le_sub_one_of_lt hlt⟩
  rcases hy.lt_or_gt with hneg | hpos
  · rw [floorQuotient, ← Int.neg_fdiv_neg]
    exact ofPos (neg_pos.mpr hneg) (by rwa [Int.natAbs_neg, Int.natAbs_neg])
  · exact ofPos hpos hmul

/-- `present(R0, R1)`: both values, `V0` and `V1` alone (R12). -/
theorem execCompletes_of_presentTwo {i : Instr} {s : State} {v w : Word} {z z' : Int} (hv : v.toInt = z)
    (hw : w.toInt = z') (h : exec i s = .next (presentTwo v w s)) :
    ExecCompletes i s (some z) (some z') none 0x03#8 := by
  have hlow : (presentTwo v w s).statusLow = 0x03#8 := by
    rw [presentTwo_eq, statusLow_complete]
    simp only [Option.isSome_some]
    decide
  rw [← hv, ← hw, ← hlow]
  exact execCompletes_of_complete h

/-- A command that delivers what `WIDE_FLOOR` gives on the dividend `n` and a divisor `y` other than zero: absent when the
magnitude quotient is too large, else the floor pair. -/
theorem exec_deliverPair_wideFloor {i : Instr} {s : State} {hi lo y : Word} {negN : Bool} {n : Int}
    (hy : y.toInt ≠ 0) (hn : withSign negN (wideValue hi lo) = n)
    (h : exec i s = .next (deliverPair (wideFloor hi lo negN y) s)) :
    (TooLarge n y.toInt → ExecAbsent i s) ∧
    (¬TooLarge n y.toInt →
      ExecCompletes i s (some (floorQuotient n y.toInt)) (some (floorRemainder n y.toInt)) none 0x03#8) := by
  rw [wideFloor_eq hi lo negN hy, hn, signedValue] at h
  constructor <;> intro hbig
  · rw [if_pos hbig] at h
    exact execAbsent_of_absent h
  · rw [if_neg hbig] at h
    exact execCompletes_of_presentTwo (toInt_bits128_of_fits (fits_floorQuotient hy hbig))
      (toInt_bits128 (floorRemainder_inI128 n hy)) h

/-! ### The two commands -/

/-- R131 with the index checked: the zero divisor is tested next (R202). -/
theorem exec_sdivf_of_le {p : Nat} (hp : p ≤ 38) (s : State) :
    exec (.sdivf p) s =
      if s.b.toInt = 0 then .next (raiseFault .zeroDivisor s) else .next (deliverPair (scaledDivFloor s.a p s.b) s) :=
  if_neg (Nat.not_lt.mpr hp)

/-- Settles O36: the index check, the zero divisor, then `WIDE_FLOOR` on the scaled dividend. -/
theorem sdivfGivesTheFloorPairOrAbsent : Obligations.SdivfGivesTheFloorPairOrAbsent := by
  intro p s n y
  have ends (hp : p ≤ 38) (hy : y ≠ 0) :=
    exec_deliverPair_wideFloor hy (withSign_wideMul_tenEntry s.a hp) ((exec_sdivf_of_le hp s).trans (if_neg hy))
  exact ⟨opField_encode _, fun hp => powerIndexAbove38Faults p .floor s _ hp (by simp),
    fun hp hy => execFaults_of_raiseFault ((exec_sdivf_of_le hp s).trans (if_pos hy)),
    fun hp hy => (ends hp hy).1, fun hp hy => (ends hp hy).2⟩

/-- R132 with the divisor tested: only a positive one is divided by. -/
theorem exec_dmdf_of_pos {s : State} (hy : 0 < s.c.toInt) :
    exec .dmdf s = .next (deliverPair (doubleMulDivFloor s.a s.b s.c) s) :=
  (if_neg hy.ne').trans (if_neg hy.le.not_gt)

/-- Settles O37: the two tests of the divisor, then `WIDE_FLOOR` on the product; the remainder's range is R16 for a positive
divisor. -/
theorem dmdfGivesTheFloorPairOrAbsent : Obligations.DmdfGivesTheFloorPairOrAbsent := by
  intro s n y
  have ends (hy : 0 < y) :=
    exec_deliverPair_wideFloor hy.ne' (withSign_wideMul_magnitude s.a s.b) (exec_dmdf_of_pos hy)
  refine ⟨opField_encode _, fun hy => execFaults_of_raiseFault (c := .zeroDivisor) (if_pos hy),
    fun hy => execFaults_of_raiseFault (c := .divisorSign) ((if_neg hy.ne).trans (if_pos hy)), fun hy => (ends hy).1,
    fun hy hbig => ?_⟩
  have range : 0 ≤ floorRemainder n y ∧ floorRemainder n y < y := by
    rw [floorRemainder_eq_fmod]
    exact ⟨Int.fmod_nonneg_of_pos n hy, Int.fmod_lt_of_pos n hy⟩
  exact ⟨range.1, range.2, (ends hy).2 hbig⟩

end Sys2Proof.Machine
end

section
/-! PROOFS. `DIVMODF` (42_floor_div_mod.md R152): the one pair of operands whose floor quotient leaves the signed range, and
the floor pair of every other pair. -/

namespace Sys2Proof.Machine

open Sys2Proof.Reference

/-! ### The range of the quotient -/

theorem toInt_fits (v : Word) : Fits v.toInt := (inI128_iff_fits _).mp (signedValue_inI128 v)

/-- A dividend in the signed range is too large only as -2^127, over a divisor of magnitude 1. -/
theorem eq_of_fits_of_tooLarge {x y : Int} (hx : Fits x) (h : TooLarge x y) : x = -2 ^ 127 ∧ (y = 1 ∨ y = -1) := by
  obtain ⟨hlo, hhi⟩ := hx
  have hbig : 2 ^ 127 - 1 < x.natAbs / y.natAbs := h
  have hle : x.natAbs / y.natAbs ≤ x.natAbs := Nat.div_le_self _ _
  have hpos : y.natAbs ≠ 0 := fun h0 => by simp [h0] at hbig
  have hlt : y.natAbs < 2 := by
    by_contra hge
    have hhalf : x.natAbs / y.natAbs ≤ x.natAbs / 2 := Nat.div_le_div_left (not_lt.mp hge) two_pos
    omega
  omega

/-- R152: only -2^127 by -1 has a floor quotient outside the signed range; -2^127 by 1 is too large for `WIDE_FLOOR`, but
its quotient is the dividend. -/
theorem fits_floorQuotient_of_fits {x y : Int} (hx : Fits x) (hy : y ≠ 0) (hover : ¬(x = -2 ^ 127 ∧ y = -1)) :
    Fits (floorQuotient x y) := by
  by_cases hbig : TooLarge x y
  · obtain ⟨hmin, rfl | hneg⟩ := eq_of_fits_of_tooLarge hx hbig
    · rwa [floorQuotient, Int.fdiv_one]
    · exact absurd ⟨hmin, hneg⟩ hover
  · exact fits_floorQuotient hy hbig

/-! ### The command -/

/-- The model's overflow test is the pair of operands R152 names. -/
theorem quotientOverflows_iff (x y : Int) : quotientOverflows x y ↔ x = -2 ^ 127 ∧ y = -1 := by
  norm_num [quotientOverflows]

/-- R152 with a divisor other than zero: the overflow test decides between the fault and the floor pair. -/
theorem exec_divmodf_of_ne_zero {s : State} (hy : s.b.toInt ≠ 0) :
    exec .divmodf s =
      if s.a.toInt = -2 ^ 127 ∧ s.b.toInt = -1 then .next (raiseFault .divOverflow s)
      else .next (presentTwo (bits128 (floorQuotient s.a.toInt s.b.toInt))
        (bits128 (floorRemainder s.a.toInt s.b.toInt)) s) := by
  simp only [exec, execDivmodf, signedValue, if_neg hy, quotientOverflows_iff, floorPairOf_eq hy, floorRemainder,
    floorQuotient]

/-- Settles O39: the zero divisor, then the one pair that overflows, and otherwise both values of the floor pair are in
range. -/
theorem divmodfGivesTheFloorPair : Obligations.DivmodfGivesTheFloorPair := by
  intro s x y
  refine ⟨opField_encode _, fun hy => execFaults_of_raiseFault (c := .zeroDivisor) (if_pos hy), fun hx hy => ?_,
    fun hy hover => ?_⟩
  · have hne : y ≠ 0 := by omega
    exact execFaults_of_raiseFault ((exec_divmodf_of_ne_zero hne).trans (if_pos ⟨hx, hy⟩))
  · exact execCompletes_of_presentTwo (toInt_bits128_of_fits (fits_floorQuotient_of_fits (toInt_fits s.a) hy hover))
      (toInt_bits128 (floorRemainder_inI128 x hy)) ((exec_divmodf_of_ne_zero hy).trans (if_neg hover))

end Sys2Proof.Machine
end

section
/-! PROOFS. The rounding engine's commands `DIVR`, `SDIVR` and `MDTPR` (43_rounding_engine.md R163 to R166): the
increment is 0 or 1, so rounding leaves the signed range only from 2^127 - 1, and how a rounded value is delivered. -/

namespace Sys2Proof.Machine

open Sys2Proof.Reference

/-! ### The increment -/

theorem nearest_eq_zero_or_one (r y : Int) {atTie : Int} (h : atTie = 0 ∨ atTie = 1) :
    nearest r y atTie = 0 ∨ nearest r y atTie = 1 := by
  unfold nearest
  split_ifs
  · exact .inl rfl
  · exact .inr rfl
  · exact h

@[simp] theorem roundIncrement_zero_remainder (m : RoundingMode) (q y : Int) : roundIncrement m q 0 y = 0 := if_pos rfl

/-- The engine keeps the floor quotient or takes the next integer (R160). -/
theorem roundIncrement_eq_zero_or_one (m : RoundingMode) (q r y : Int) :
    roundIncrement m q r y = 0 ∨ roundIncrement m q r y = 1 := by
  by_cases hr : r = 0
  · rw [hr]
    exact .inl (roundIncrement_zero_remainder m q y)
  unfold roundIncrement
  rw [if_neg hr]
  cases m with
  | floor => exact .inl rfl
  | ceiling => exact .inr rfl
  | up => exact ite_eq_or_eq _ 0 1
  | down => exact (ite_eq_or_eq _ 1 0).symm
  | halfUp => exact nearest_eq_zero_or_one r y (ite_eq_or_eq _ 0 1)
  | halfDown => exact nearest_eq_zero_or_one r y (ite_eq_or_eq _ 1 0).symm
  | halfEven => exact nearest_eq_zero_or_one r y (Int.emod_two_eq_zero_or_one q)
  | halfCeiling => exact nearest_eq_zero_or_one r y (.inr rfl)
  | halfFloor => exact nearest_eq_zero_or_one r y (.inl rfl)

/-! ### The range of the rounded value -/

/-- Rounding leaves the signed range only by going up from 2^127 - 1 (R166). -/
theorem fits_add_roundIncrement {m : RoundingMode} {q r y : Int} (hq : Fits q)
    (hup : ¬(q = 2 ^ 127 - 1 ∧ roundIncrement m q r y = 1)) : Fits (q + roundIncrement m q r y) := by
  rcases roundIncrement_eq_zero_or_one m q r y with hinc | hinc
  · rwa [hinc, add_zero]
  · have hne : q ≠ 2 ^ 127 - 1 := fun h => hup ⟨h, hinc⟩
    rw [hinc]
    omega

/-- A dividend in the signed range has the floor quotient 2^127 - 1 only over a divisor of magnitude 1, which leaves no
remainder (R166). -/
theorem floorRemainder_eq_zero_of_floorQuotient_eq_max {x y : Int} (hx : Fits x) (hy : y ≠ 0)
    (hq : floorQuotient x y = 2 ^ 127 - 1) : floorRemainder x y = 0 := by
  have hrange := floorRemainder_range x hy
  have hr : floorRemainder x y = x - (2 ^ 127 - 1) * y := by rw [floorRemainder, hq]
  obtain ⟨hlo, hhi⟩ := hx
  omega

/-! ### Delivering a rounded value -/

/-- The bound of the model's test is the one R164 and R165 write. -/
theorem i128Max_eq : i128Max = 2 ^ 127 - 1 := by norm_num

/-- A command that rounds what `WIDE_FLOOR` gives on the dividend `n` and a divisor `y` other than zero: absent when the
floor stage is absent or rounding leaves 2^127 - 1, else the rounded value (R164, R165). -/
theorem exec_deliverRounded_wideFloor {i : Instr} {s : State} {m : RoundingMode} {hi lo y : Word} {negN : Bool}
    {n : Int} (hy : y.toInt ≠ 0) (hn : withSign negN (wideValue hi lo) = n)
    (h : exec i s = .next (deliverRounded m (wideFloor hi lo negN y) y.toInt s)) :
    let q := floorQuotient n y.toInt
    let inc := roundIncrement m q (floorRemainder n y.toInt) y.toInt
    (TooLarge n y.toInt ∨ q = 2 ^ 127 - 1 ∧ inc = 1 → ExecAbsent i s) ∧
    (¬(TooLarge n y.toInt ∨ q = 2 ^ 127 - 1 ∧ inc = 1) → ExecCompletes i s (some (q + inc)) none none 0x01#8) := by
  intro q inc
  rw [wideFloor_eq hi lo negN hy, hn, signedValue] at h
  by_cases hbig : TooLarge n y.toInt
  · rw [if_pos hbig] at h
    exact ⟨fun _ => execAbsent_of_absent h, fun hnot => absurd (.inl hbig) hnot⟩
  · simp only [if_neg hbig, deliverRounded, i128Max_eq] at h
    constructor
    · intro habs
      rw [if_pos (habs.resolve_left hbig)] at h
      exact execAbsent_of_absent h
    · intro hnot
      have hup : ¬(q = 2 ^ 127 - 1 ∧ inc = 1) := fun hup => hnot (.inr hup)
      have hfits : Fits (q + inc) := fits_add_roundIncrement (fits_floorQuotient hy hbig) hup
      rw [if_neg hup] at h
      exact execCompletes_of_presentOne (toInt_bits128_of_fits hfits) h

/-! ### The three commands -/

/-- R163 with a divisor other than zero: the overflow test decides between the fault and the rounded floor pair. -/
theorem exec_divr_of_ne_zero (m : RoundingMode) {s : State} (hy : s.b.toInt ≠ 0) :
    exec (.divr m) s =
      if s.a.toInt = -2 ^ 127 ∧ s.b.toInt = -1 then .next (raiseFault .divOverflow s)
      else .next (presentOne (bits128 (rounded m
        ⟨floorQuotient s.a.toInt s.b.toInt, floorRemainder s.a.toInt s.b.toInt⟩ s.b.toInt)) s) := by
  simp only [exec, execDivr, signedValue, if_neg hy, quotientOverflows_iff, floorPairOf_eq hy, floorRemainder,
    floorQuotient]

/-- Settles O43: the two faults of `DIVMODF`, and otherwise a value in range, for a quotient of 2^127 - 1 is exact. -/
theorem divrGivesTheRoundedQuotient : Obligations.DivrGivesTheRoundedQuotient := by
  intro m s x y q
  refine ⟨opField_encode _, fun hy => execFaults_of_raiseFault (c := .zeroDivisor) (if_pos hy), fun hx hy => ?_,
    fun hy hover => ?_⟩
  · have hne : y ≠ 0 := by omega
    exact execFaults_of_raiseFault ((exec_divr_of_ne_zero m hne).trans (if_pos ⟨hx, hy⟩))
  · have hup : ¬(q = 2 ^ 127 - 1 ∧ roundIncrement m q (floorRemainder x y) y = 1) := by
      rintro ⟨hmax, hinc⟩
      have hrem : floorRemainder x y = 0 := floorRemainder_eq_zero_of_floorQuotient_eq_max (toInt_fits s.a) hy hmax
      rw [hrem, roundIncrement_zero_remainder] at hinc
      exact absurd hinc zero_ne_one
    have hfits := fits_add_roundIncrement (fits_floorQuotient_of_fits (toInt_fits s.a) hy hover) hup
    exact execCompletes_of_presentOne (toInt_bits128_of_fits hfits)
      ((exec_divr_of_ne_zero m hy).trans (if_neg hover))

/-- R164 with the index checked: the zero divisor is tested next (R202). -/
theorem exec_sdivr_of_le {p : Nat} (hp : p ≤ 38) (m : RoundingMode) (s : State) :
    exec (.sdivr p m) s =
      if s.b.toInt = 0 then .next (raiseFault .zeroDivisor s)
      else .next (deliverRounded m (scaledDivFloor s.a p s.b) s.b.toInt s) :=
  if_neg (Nat.not_lt.mpr hp)

/-- Settles O44: the index check, the zero divisor, then the rounding of `WIDE_FLOOR` on the scaled dividend. -/
theorem sdivrGivesTheRoundedQuotientOrAbsent : Obligations.SdivrGivesTheRoundedQuotientOrAbsent := by
  intro p m s n y q inc
  have ends (hp : p ≤ 38) (hy : y ≠ 0) :=
    exec_deliverRounded_wideFloor hy (withSign_wideMul_tenEntry s.a hp) ((exec_sdivr_of_le hp m s).trans (if_neg hy))
  exact ⟨opField_encode _, fun hp => powerIndexAbove38Faults p m s _ hp (by simp),
    fun hp hy => execFaults_of_raiseFault ((exec_sdivr_of_le hp m s).trans (if_pos hy)),
    fun hp hy => (ends hp hy).1, fun hp hy => (ends hp hy).2⟩

/-- R165 with the index checked: the divisor is an entry of the table and needs no test. -/
theorem exec_mdtpr_of_le {p : Nat} (hp : p ≤ 38) (m : RoundingMode) (s : State) :
    exec (.mdtpr p m) s =
      .next (deliverRounded m (doubleMulDivFloor s.a s.b (tenEntry p)) (tenEntry p).toInt s) :=
  if_neg (Nat.not_lt.mpr hp)

/-- Settles O45: the index check, then the rounding of `WIDE_FLOOR` on the product, over a power of ten. -/
theorem mdtprGivesTheRoundedProductOrAbsent : Obligations.MdtprGivesTheRoundedProductOrAbsent := by
  intro p m s n y q inc
  have ends (hp : p ≤ 38) := by
    have hten : (tenEntry p).toInt = y := toInt_tenEntry hp
    have hy : (tenEntry p).toInt ≠ 0 := by
      rw [hten]
      positivity
    have h := exec_deliverRounded_wideFloor hy (withSign_wideMul_magnitude s.a s.b) (exec_mdtpr_of_le hp m s)
    rwa [hten] at h
  exact ⟨opField_encode _, fun hp => powerIndexAbove38Faults p m s _ hp (by simp), fun hp => (ends hp).1,
    fun hp => (ends hp).2⟩

end Sys2Proof.Machine
end

section
/-! PROOF. The scanner classifies every byte string (44_parser.md R181 to R184): the pass over a spelling of the grammar
ends with the numeral's own fields, whose value is that of R183; and the bytes a pass has taken are, by the state it
stands in, a finished or an unfinished text of the grammar. -/

namespace Sys2Proof.Machine

open Sys2Proof.Reference

/-! ### The pass over a spelling -/

/-- The state in which the pass over a mantissa ends (R182). -/
def Mantissa.endPoint : Mantissa → ScanPoint
  | .whole _ _ => .s2
  | .pointed _ _ _ => .s4
  | .fraction _ _ => .s4

theorem Mantissa.endPoint_eq (m : Mantissa) : m.endPoint = .s2 ∨ m.endPoint = .s4 := by
  cases m with
  | whole => exact .inl rfl
  | pointed => exact .inr rfl
  | fraction => exact .inr rfl

/-- The scanner after the sign of a text. -/
def signScan (sign : Option Bool) : Scan :=
  { Scan.start with at_ := if sign.isSome then .s1 else .s0, neg := sign == some true }

/-- The scanner after the sign and the mantissa of a text. -/
def mantissaScan (sign : Option Bool) (m : Mantissa) : Scan :=
  { signScan sign with at_ := m.endPoint, mag := digitsValue m.digits, frac := m.fracDigits.length }

/-- The scanner after a text of the grammar. -/
def Numeral.endScan (n : Numeral) : Scan :=
  match n.exponent with
  | none => mantissaScan n.sign n.mantissa
  | some e =>
    { mantissaScan n.sign n.mantissa with
      at_ := .s7, expNeg := e.sign == some true, exp := digitsValue (e.first :: e.others) }

theorem run_spellSign (sign : Option Bool) : Scan.start.run (spellSign sign) = some (signScan sign) := by
  cases sign with
  | none => rfl
  | some neg => cases neg <;> rfl

theorem signScan_at_ (sign : Option Bool) : (signScan sign).at_ = .s0 ∨ (signScan sign).at_ = .s1 := by
  cases sign with
  | none => exact .inl rfl
  | some neg => exact .inr rfl

/-- From `S0` and from `S1` a mantissa is read in the same way. -/
theorem Scan.run_mantissa (m : Mantissa) {sc : Scan} (h : sc.at_ = .s0 ∨ sc.at_ = .s1) :
    sc.run m.spell =
      some { sc with
        at_ := m.endPoint, mag := m.digits.foldl (fun v d => v * 10 + d.val) sc.mag,
        frac := sc.frac + m.fracDigits.length } := by
  obtain ⟨at_, neg, mag, frac, expNeg, exp⟩ := sc
  cases m with
  | whole d ds =>
    rcases h with rfl | rfl <;>
      simp [Mantissa.spell, Scan.run, Scan.move, Scan.takeDigit, Scan.run_integer, Mantissa.endPoint, Mantissa.digits,
        Mantissa.fracDigits]
  | pointed d ds fs =>
    rcases h with rfl | rfl <;>
      simp [Mantissa.spell, Scan.run, Scan.move, Scan.takeDigit, Scan.run_append, Scan.run_integer, Scan.run_fraction,
        Mantissa.endPoint, Mantissa.digits, Mantissa.fracDigits]
  | fraction d ds =>
    rcases h with rfl | rfl <;>
      simp [Mantissa.spell, Scan.run, Scan.move, Scan.takeFraction, Scan.run_fraction, Mantissa.endPoint,
        Mantissa.digits, Mantissa.fracDigits, Nat.add_assoc, Nat.add_comm 1]

/-- From either state after a mantissa an exponent part is read in the same way. -/
theorem Scan.run_exponentPart (e : ExponentPart) {sc : Scan} (h : sc.at_ = .s2 ∨ sc.at_ = .s4)
    (hneg : sc.expNeg = false) :
    sc.run e.spell =
      some { sc with
        at_ := .s7, expNeg := e.sign == some true,
        exp := (e.first :: e.others).foldl (fun v d => v * 10 + d.val) sc.exp } := by
  obtain ⟨at_, neg, mag, frac, expNeg, exp⟩ := sc
  obtain ⟨upper, sign, d, ds⟩ := e
  obtain rfl : expNeg = false := hneg
  cases sign with
  | none =>
    rcases h with rfl | rfl <;>
      simp [ExponentPart.spell, spellSign, Scan.run, Scan.move, Scan.takeExponent, Scan.run_exponent]
  | some neg =>
    rcases h with rfl | rfl <;>
      simp [ExponentPart.spell, spellSign, Scan.run, Scan.move, Scan.takeExponent, Scan.run_exponent]

theorem run_sign_mantissa (sign : Option Bool) (m : Mantissa) :
    Scan.start.run (spellSign sign ++ m.spell) = some (mantissaScan sign m) := by
  rw [Scan.run_append, run_spellSign, Option.bind_some, Scan.run_mantissa m (signScan_at_ sign)]
  simp [mantissaScan, signScan, Scan.start, digitsValue]

theorem spell_none (sign : Option Bool) (m : Mantissa) :
    (Numeral.mk sign m none).spell = spellSign sign ++ m.spell := by simp [Numeral.spell]

theorem spell_some (sign : Option Bool) (m : Mantissa) (e : ExponentPart) :
    (Numeral.mk sign m (some e)).spell = spellSign sign ++ m.spell ++ e.spell := by simp [Numeral.spell]

/-- The pass takes every text of the grammar, and keeps the numeral's fields. -/
theorem run_spell (n : Numeral) : Scan.start.run n.spell = some n.endScan := by
  obtain ⟨sign, m, exponent⟩ := n
  cases exponent with
  | none => rw [spell_none, run_sign_mantissa, Numeral.endScan]
  | some e =>
    rw [spell_some, Scan.run_append, run_sign_mantissa, Option.bind_some, Scan.run_exponentPart e m.endPoint_eq rfl]
    rfl

/-! ### The value -/

/-- A magnitude times a power of ten above the largest entry of the table leaves the range, unless it is zero (R186). -/
theorem not_inI128_withSign_of_maxPow_lt {neg : Bool} {m k : Nat} (hm : m ≠ 0) (hk : maxPow < k) :
    ¬InI128 (withSign neg (m * 10 ^ k)) := by
  have hpow : 10 ^ 39 ≤ 10 ^ k := Nat.pow_le_pow_right (by norm_num) hk
  have hbig : 10 ^ 39 ≤ m * 10 ^ k := hpow.trans (Nat.le_mul_of_pos_left _ (Nat.pos_of_ne_zero hm))
  unfold withSign
  simp only [InI128, i128Min, i128Max]
  generalize m * 10 ^ k = z at hbig
  split_ifs <;> omega

/-- The value of an accepted text is one capacity test, on the exact coefficient and scale (R183). -/
theorem valueOf_eq (neg : Bool) (m : Nat) (k : Int) :
    valueOf neg m k =
      checkCapacity (withSign neg (if k ≤ 0 then m else m * 10 ^ k.toNat)) (if k ≤ 0 then (-k).toNat else 0) := by
  unfold valueOf
  split_ifs with hk
  · rfl
  · unfold scaledMagnitude
    split_ifs with hm hbig
    · simp [hm]
    · exact (if_neg fun hcap => not_inI128_withSign_of_maxPow_lt hm hbig hcap.2).symm
    · rfl

/-- The value a numeral's own fields give is the scanner's value of its sign, its digits and its shift (R183). -/
theorem checkCapacity_numeral (n : Numeral) :
    checkCapacity n.coefficient n.scale = valueOf (n.sign == some true) (digitsValue n.mantissa.digits) n.shift := by
  simp [valueOf_eq, Numeral.coefficient, Numeral.scale, Numeral.mag, withSign]

/-- After a text of the grammar the pass stands in a state that accepts. -/
theorem finish_endScan (n : Numeral) : n.endScan.finish = checkCapacity n.coefficient n.scale := by
  rw [checkCapacity_numeral]
  obtain ⟨sign, m, exponent⟩ := n
  cases exponent with
  | none => cases m <;> rfl
  | some e => simp [Numeral.endScan, mantissaScan, signScan, Scan.finish, Numeral.shift, Numeral.exponentValue, shiftOf]

/-- The classification of a text of the grammar is the capacity test on its exact value (R183, R184). -/
theorem parseText_spell (n : Numeral) : parseText n.spell = checkCapacity n.coefficient n.scale := by
  simp only [parseText, run_spell, finish_endScan]

/-! ### The bytes a pass has taken -/

/-- A mantissa with one more digit at its end. -/
def Mantissa.addDigit (d' : Digit) : Mantissa → Mantissa
  | .whole d ds => .whole d (ds ++ [d'])
  | .pointed d ds frac => .pointed d ds (frac ++ [d'])
  | .fraction d ds => .fraction d (ds ++ [d'])

@[simp] theorem Mantissa.spell_addDigit (d' : Digit) (m : Mantissa) :
    (m.addDigit d').spell = m.spell ++ [digitByte d'] := by
  cases m <;> simp [Mantissa.addDigit, Mantissa.spell]

@[simp] theorem Mantissa.endPoint_addDigit (d' : Digit) (m : Mantissa) : (m.addDigit d').endPoint = m.endPoint := by
  cases m <;> rfl

/-- The moves of the table of R182, on the bytes themselves. -/
inductive TableMove : ScanPoint → Byte → ScanPoint → Prop where
  | s0Sign (neg : Bool) : TableMove .s0 (signByte neg) .s1
  | s0Digit (d : Digit) : TableMove .s0 (digitByte d) .s2
  | s0Point : TableMove .s0 pointByte .s3
  | s1Digit (d : Digit) : TableMove .s1 (digitByte d) .s2
  | s1Point : TableMove .s1 pointByte .s3
  | s2Digit (d : Digit) : TableMove .s2 (digitByte d) .s2
  | s2Point : TableMove .s2 pointByte .s4
  | s2Marker (upper : Bool) : TableMove .s2 (markerByte upper) .s5
  | s3Digit (d : Digit) : TableMove .s3 (digitByte d) .s4
  | s4Digit (d : Digit) : TableMove .s4 (digitByte d) .s4
  | s4Marker (upper : Bool) : TableMove .s4 (markerByte upper) .s5
  | s5Sign (neg : Bool) : TableMove .s5 (signByte neg) .s6
  | s5Digit (d : Digit) : TableMove .s5 (digitByte d) .s7
  | s6Digit (d : Digit) : TableMove .s6 (digitByte d) .s7
  | s7Digit (d : Digit) : TableMove .s7 (digitByte d) .s7

/-- A byte with a meaning to the grammar is one of the bytes spellings are made of (R51). -/
theorem byte_cases (b : Byte) :
    (∃ d, b = digitByte d) ∨ (∃ neg, b = signByte neg) ∨ b = pointByte ∨ (∃ upper, b = markerByte upper) ∨
      classOf b = .other := by
  unfold classOf
  split_ifs with hdigit hplus hminus hpoint hmarker
  · refine .inl ⟨⟨b.toNat - 0x30, by omega⟩, BitVec.eq_of_toNat_eq ?_⟩
    simp only [digitByte, BitVec.toNat_ofNat]
    omega
  · exact .inr (.inl ⟨false, BitVec.eq_of_toNat_eq hplus⟩)
  · exact .inr (.inl ⟨true, BitVec.eq_of_toNat_eq hminus⟩)
  · exact .inr (.inr (.inl (BitVec.eq_of_toNat_eq hpoint)))
  · rcases hmarker with hlower | hupper
    · exact .inr (.inr (.inr (.inl ⟨false, BitVec.eq_of_toNat_eq hlower⟩)))
    · exact .inr (.inr (.inr (.inl ⟨true, BitVec.eq_of_toNat_eq hupper⟩)))
  · exact .inr (.inr (.inr (.inr rfl)))

/-- Every move the scanner makes is one of the table. -/
theorem Scan.tableMove_of_move {sc sc' : Scan} {b : Byte} (h : sc.move (classOf b) = some sc') :
    TableMove sc.at_ b sc'.at_ := by
  obtain ⟨p, neg, mag, frac, expNeg, exp⟩ := sc
  rcases byte_cases b with ⟨d, rfl⟩ | ⟨neg', rfl⟩ | rfl | ⟨upper, rfl⟩ | hother
  · rw [classOf_digitByte] at h
    cases p <;> cases h <;> constructor
  · rw [classOf_signByte] at h
    cases p <;> cases h <;> constructor
  · rw [classOf_pointByte] at h
    cases p <;> cases h <;> constructor
  · rw [classOf_markerByte] at h
    cases p <;> cases h <;> constructor
  · rw [hother] at h
    cases p <;> cases h

/-- The texts that lead to each state of R182: the finished texts of the grammar, and the unfinished ones. -/
inductive LeadsTo : ScanPoint → List Byte → Prop where
  | empty : LeadsTo .s0 []
  | sign (neg : Bool) : LeadsTo .s1 (spellSign (some neg))
  | point (sign : Option Bool) : LeadsTo .s3 (spellSign sign ++ [pointByte])
  | mantissa (sign : Option Bool) (m : Mantissa) : LeadsTo m.endPoint (spellSign sign ++ m.spell)
  | marker (sign : Option Bool) (m : Mantissa) (upper : Bool) :
    LeadsTo .s5 (spellSign sign ++ m.spell ++ [markerByte upper])
  | exponentSign (sign : Option Bool) (m : Mantissa) (upper neg : Bool) :
    LeadsTo .s6 (spellSign sign ++ m.spell ++ markerByte upper :: spellSign (some neg))
  | exponent (sign : Option Bool) (m : Mantissa) (e : ExponentPart) :
    LeadsTo .s7 (spellSign sign ++ m.spell ++ e.spell)

/-- After a mantissa: one more digit, the point after an integer run, or the marker. -/
theorem TableMove.of_endPoint {m : Mantissa} {b : Byte} {q : ScanPoint} (h : TableMove m.endPoint b q) :
    (∃ d, b = digitByte d ∧ q = m.endPoint) ∨ (∃ d ds, m = .whole d ds ∧ b = pointByte ∧ q = .s4) ∨
      ∃ upper, b = markerByte upper ∧ q = .s5 := by
  have afterPoint {b : Byte} {q : ScanPoint} (h : TableMove .s4 b q) :
      (∃ d, b = digitByte d ∧ q = .s4) ∨ ∃ upper, b = markerByte upper ∧ q = .s5 := by
    cases h with
    | s4Digit d => exact .inl ⟨d, rfl, rfl⟩
    | s4Marker upper => exact .inr ⟨upper, rfl, rfl⟩
  cases m with
  | whole d ds =>
    cases h with
    | s2Digit d' => exact .inl ⟨d', rfl, rfl⟩
    | s2Point => exact .inr (.inl ⟨d, ds, rfl, rfl, rfl⟩)
    | s2Marker upper => exact .inr (.inr ⟨upper, rfl, rfl⟩)
  | pointed => exact (afterPoint h).imp_right .inr
  | fraction => exact (afterPoint h).imp_right .inr

/-- One more byte, by a move of the table, leads from the text of one state to a text of the next. -/
theorem LeadsTo.snoc {p q : ScanPoint} {t : List Byte} {b : Byte} (h : LeadsTo p t) (hm : TableMove p b q) :
    LeadsTo q (t ++ [b]) := by
  cases h with
  | empty =>
    cases hm with
    | s0Sign neg => exact .sign neg
    | s0Digit d => exact .mantissa none (.whole d [])
    | s0Point => exact .point none
  | sign neg =>
    cases hm with
    | s1Digit d => exact .mantissa (some neg) (.whole d [])
    | s1Point => exact .point (some neg)
  | point sign =>
    cases hm with
    | s3Digit d => simpa [Mantissa.spell, Mantissa.endPoint] using LeadsTo.mantissa sign (.fraction d [])
  | mantissa sign m =>
    rcases hm.of_endPoint with ⟨d, rfl, rfl⟩ | ⟨d, ds, rfl, rfl, rfl⟩ | ⟨upper, rfl, rfl⟩
    · simpa using LeadsTo.mantissa sign (m.addDigit d)
    · simpa [Mantissa.spell, Mantissa.endPoint] using LeadsTo.mantissa sign (.pointed d ds [])
    · exact .marker sign m upper
  | marker sign m upper =>
    cases hm with
    | s5Sign neg => simpa [spellSign] using LeadsTo.exponentSign sign m upper neg
    | s5Digit d => simpa [ExponentPart.spell, spellSign] using LeadsTo.exponent sign m ⟨upper, none, d, []⟩
  | exponentSign sign m upper neg =>
    cases hm with
    | s6Digit d => simpa [ExponentPart.spell] using LeadsTo.exponent sign m ⟨upper, some neg, d, []⟩
  | exponent sign m e =>
    cases hm with
    | s7Digit d =>
      obtain ⟨upper, eSign, d', ds⟩ := e
      simpa [ExponentPart.spell] using LeadsTo.exponent sign m ⟨upper, eSign, d', ds ++ [d]⟩

/-- What a pass has taken leads to the state it stands in. -/
theorem leadsTo_of_run {t : List Byte} {sc : Scan} (h : Scan.start.run t = some sc) : LeadsTo sc.at_ t := by
  induction t using List.reverseRecOn generalizing sc with
  | nil =>
    cases h
    exact .empty
  | append_singleton t b ih =>
    rw [Scan.run_append, Option.bind_eq_some_iff] at h
    obtain ⟨sc0, ht, hb⟩ := h
    cases hmove : sc0.move (classOf b) with
    | none => simp [Scan.run, hmove] at hb
    | some sc1 =>
      obtain rfl : sc1 = sc := by simpa [Scan.run, hmove] using hb
      exact (ih ht).snoc (Scan.tableMove_of_move hmove)

/-! ### The classification -/

/-- The texts of sign and point alone (R184, order 2). -/
abbrev noDigitTexts : List (List Byte) := [[0x2B#8], [0x2D#8], [0x2E#8], [0x2B#8, 0x2E#8], [0x2D#8, 0x2E#8]]

/-- The texts of R184 by where the pass over them ends: the empty text, those without a digit, the texts of the grammar,
and those that stop inside an exponent. -/
theorem LeadsTo.classes {p : ScanPoint} {t : List Byte} (h : LeadsTo p t) :
    t = [] ∨ t ∈ noDigitTexts ∨ (∃ n : Numeral, n.spell = t) ∨ p = .s5 ∨ p = .s6 := by
  cases h with
  | empty => exact .inl rfl
  | sign neg =>
    refine .inr (.inl ?_)
    cases neg <;> decide
  | point sign =>
    refine .inr (.inl ?_)
    rcases sign with _ | _ | _ <;> decide
  | mantissa sign m => exact .inr (.inr (.inl ⟨_, spell_none sign m⟩))
  | marker => exact .inr (.inr (.inr (.inl rfl)))
  | exponentSign => exact .inr (.inr (.inr (.inr rfl)))
  | exponent sign m e => exact .inr (.inr (.inl ⟨_, spell_some sign m e⟩))

/-- A text of no other class is refused on the way, or its end lies inside an exponent (R184, order 3). -/
theorem parseText_eq_malformed {t : List Byte} (hne : t ≠ []) (hdigit : t ∉ noDigitTexts)
    (hspell : ∀ n : Numeral, n.spell ≠ t) : parseText t = .error .malformedSignOrExponent := by
  cases hrun : Scan.start.run t with
  | none => simp only [parseText, hrun]
  | some sc =>
    rcases (leadsTo_of_run hrun).classes with hempty | hmem | ⟨n, hn⟩ | hp | hp
    · exact absurd hempty hne
    · exact absurd hmem hdigit
    · exact absurd hn (hspell n)
    · simp only [parseText, hrun, Scan.finish, hp]
    · simp only [parseText, hrun, Scan.finish, hp]

/-- Settles O46: a text of the grammar by the capacity test on its value, the empty text and the five texts without a
digit by running the scanner, every other text by the states its pass can end in. -/
theorem parserClassifiesEveryText : Obligations.ParserClassifiesEveryText := by
  refine ⟨fun n hscale hfit => ?_, fun n hnot => ?_, rfl, by decide, fun _ => parseText_eq_malformed⟩
  · exact (parseText_spell n).trans (if_pos ⟨hscale, (inI128_iff_fits _).mpr hfit⟩)
  · exact (parseText_spell n).trans (if_neg fun hcap => hnot ⟨hcap.1, (inI128_iff_fits _).mp hcap.2⟩)

end Sys2Proof.Machine
end

section
/-! PROOF. `PARSE` as a command (44_parser.md R185): the text it reads, and what it delivers for a classified text. -/

namespace Sys2Proof.Machine

open Sys2Proof.Reference

/-! ### The text that is read -/

/-- `TLEN` within `TEXT_MAX` and a text read: the command delivers its classification (R185). -/
theorem exec_parse_of_readText_ok {s : State} {t : List Byte} (hlen : s.tlen.toNat ≤ s.config.textMax)
    (hr : readText s.txt s.tlen.toNat 0 = .ok t) : exec .parse s = .next (deliverParsed (parseText t) s) := by
  simp only [exec, execParse, if_neg (Nat.not_lt.mpr hlen), hr]

/-- `TLEN` within `TEXT_MAX` and a byte that holds no value: the command stops there (R62). -/
theorem exec_parse_of_readText_error {s : State} {j : Nat} (hlen : s.tlen.toNat ≤ s.config.textMax)
    (hr : readText s.txt s.tlen.toNat 0 = .error j) : exec .parse s = .fault (.unwrittenText j) := by
  simp only [exec, execParse, if_neg (Nat.not_lt.mpr hlen), hr]

/-- A text with all its bytes written is what the command reads (R180). -/
theorem readText_of_textIs {s : State} {t : List Byte} (h : TextIs s t) :
    readText s.txt s.tlen.toNat 0 = .ok t := by
  rw [readText_ok_iff]
  simpa [TextIs] using h

/-- With all bytes written, the command delivers the classification of the text. -/
theorem exec_parse_of_textIs {s : State} {t : List Byte} (hlen : s.tlen.toNat ≤ s.config.textMax) (h : TextIs s t) :
    exec .parse s = .next (deliverParsed (parseText t) s) :=
  exec_parse_of_readText_ok hlen (readText_of_textIs h)

/-- With a byte not written, there is no text to read, so the command has no next state (R62). -/
theorem exec_parse_ne_next_of_unwritten {s : State} (hlen : s.tlen.toNat ≤ s.config.textMax)
    (hj : ∃ j, j < s.tlen.toNat ∧ Memory.read s.txt j = none) (u : State) : exec .parse s ≠ .next u := by
  obtain ⟨j, hlt, hnone⟩ := hj
  cases hr : readText s.txt s.tlen.toNat 0 with
  | error i => simp [exec_parse_of_readText_error hlen hr]
  | ok t =>
    obtain ⟨hlength, hread⟩ := (readText_ok_iff _ _ _ _).mp hr
    have hsome := hread j (hlength ▸ hlt)
    rw [Nat.zero_add, hnone] at hsome
    cases hsome

/-! ### What is delivered -/

/-- `present(R0, RSC)`: the coefficient and its scale, `V0` and `VS` (R185). -/
theorem execCompletes_of_presentParsed {i : Instr} {s : State} {v : Word} {k : Byte} {z : Int} {n : Nat}
    (hv : v.toInt = z) (hk : k.toNat = n) (h : exec i s = .next (presentParsed v k s)) :
    ExecCompletes i s (some z) none (some n) 0x05#8 := by
  have hlow : (presentParsed v k s).statusLow = 0x05#8 := by
    rw [presentParsed_eq, statusLow_complete]
    simp only [Option.isSome_some]
    decide
  rw [← hv, ← hk, ← hlow]
  exact execCompletes_of_complete h

/-- `error(kind)`: nothing valid, and `PERR` holds the kind (R12, R185). -/
theorem execCompletes_of_parseFailed {i : Instr} {s : State} {e : ParseError}
    (h : exec i s = .next (parseFailed e s)) : ExecCompletes i s none none none (e.code ++ 0#5) := by
  have hlow : (parseFailed e s).statusLow = e.code ++ 0#5 := by
    rw [parseFailed_eq, statusLow_complete]
    cases e <;> decide
  rw [← hlow]
  exact execCompletes_of_complete h

/-- A successful classification fits the result registers, so both values are read back as they are (R185). -/
theorem execCompletes_parse_of_success {s : State} {t : List Byte} {c : Int} {n : Nat}
    (hlen : s.tlen.toNat ≤ s.config.textMax) (ht : TextIs s t) (hp : parseText t = .success c n) :
    ExecCompletes .parse s (some c) none (some n) 0x05#8 := by
  obtain ⟨hn, hc⟩ := parseText_success hp
  have hscale : (BitVec.ofNat 8 n).toNat = n := by
    rw [BitVec.toNat_ofNat, Nat.mod_eq_of_lt (by omega)]
  have hexec := exec_parse_of_textIs hlen ht
  rw [hp] at hexec
  exact execCompletes_of_presentParsed (toInt_bits128 hc) hscale hexec

theorem execCompletes_parse_of_error {s : State} {t : List Byte} {e : ParseError}
    (hlen : s.tlen.toNat ≤ s.config.textMax) (ht : TextIs s t) (hp : parseText t = .error e) :
    ExecCompletes .parse s none none none (e.code ++ 0#5) := by
  have hexec := exec_parse_of_textIs hlen ht
  rw [hp] at hexec
  exact execCompletes_of_parseFailed hexec

/-- Settles O49: the length check, then the read of the text, then the completion of its classification. -/
theorem parseDeliversTheClassification : Obligations.ParseDeliversTheClassification := by
  intro s
  refine ⟨opField_encode _, fun hlen => execFaults_of_raiseFault (c := .textRange) (if_pos hlen),
    exec_parse_ne_next_of_unwritten, fun t hlen ht => ⟨fun c n => execCompletes_parse_of_success hlen ht, ?_⟩⟩
  have failed (e : ParseError) := execCompletes_parse_of_error (e := e) hlen ht
  exact ⟨failed .emptyInput, failed .noDigitsFound, failed .malformedSignOrExponent, failed .scaleExceedsMaximum⟩

end Sys2Proof.Machine
end

section
/-! PROOF. The priority of fault causes (60_exceptions.md R202, R203): a command tests the causes of its row of the table
in the order of their codes, and where every test passes it completes, which leaves `FAULT` and `FCAUSE` alone (R26). -/

namespace Sys2Proof.Machine

open Sys2Proof.Reference

/-! ### Outcomes that take no fault -/

/-- Where the outcome `o` from `s` has a next state, `FAULT` and `FCAUSE` are as before. -/
def KeepsFault (s : State) (o : StepOutcome) : Prop := ∀ t, o = .next t → t.status.fault = s.status.fault

theorem keepsFault_of_next {s u : State} {o : StepOutcome} (h : o = .next u) (hu : u.status.fault = s.status.fault) :
    KeepsFault s o := by
  rintro t ht
  cases h.symm.trans ht
  exact hu

theorem fault_deliverPair (p : Option FloorPair) (s : State) : (deliverPair p s).status.fault = s.status.fault := by
  cases p <;> rfl

theorem fault_deliverRounded (m : RoundingMode) (p : Option FloorPair) (y : Int) (s : State) :
    (deliverRounded m p y s).status.fault = s.status.fault := by
  cases p with
  | none => rfl
  | some fp =>
    simp only [deliverRounded]
    split_ifs <;> rfl

theorem fault_deliverParsed (p : Parsed) (s : State) : (deliverParsed p s).status.fault = s.status.fault := by
  cases p <;> rfl

/-- With `TLEN` in range `PARSE` delivers a classification, or has no next state (R185, R62). -/
theorem keepsFault_parse_of_le {s : State} (hlen : s.tlen.toNat ≤ s.config.textMax) :
    KeepsFault s (exec .parse s) := by
  cases hr : readText s.txt s.tlen.toNat 0 with
  | ok t => exact keepsFault_of_next (exec_parse_of_readText_ok hlen hr) (fault_deliverParsed _ s)
  | error j =>
    intro t ht
    cases (exec_parse_of_readText_error hlen hr).symm.trans ht

/-! ### The rule of R202 -/

/-- R202 for an outcome `o` from `s`, where `P` holds of the codes of the causes that apply. -/
def TakesLowest (P : Nat → Prop) (s : State) (o : StepOutcome) : Prop :=
  (∀ code, (P code ∧ ∀ k, P k → code ≤ k) → ∃ t, o = .next t ∧ FaultsWith s t code) ∧
    ((∀ code, ¬P code) → KeepsFault s o)

section Rows

variable {s : State} {o : StepOutcome} {b b' : Prop}

/-- A row with one cause, or the last cause of a row. -/
theorem TakesLowest.one (c : FaultCause) (hfault : b → o = .next (raiseFault c s)) (hnone : ¬b → KeepsFault s o) :
    TakesLowest (fun code => code = c.code.toNat ∧ b) s o := by
  constructor
  · rintro _ ⟨⟨rfl, hb⟩, -⟩
    exact ⟨_, hfault hb, faultsWith_raiseFault c s⟩
  · exact fun hno => hnone fun hb => hno _ ⟨rfl, hb⟩

/-- `TakesLowest.one` for a command that has come to its last test and completes when it passes. -/
theorem TakesLowest.of_ite [Decidable b] (c : FaultCause) {u : State}
    (h : o = if b then .next (raiseFault c s) else .next u) (hu : u.status.fault = s.status.fault) :
    TakesLowest (fun code => code = c.code.toNat ∧ b) s o :=
  .one c (fun hb => h.trans (if_pos hb)) fun hb => keepsFault_of_next (h.trans (if_neg hb)) hu

/-- A cause tested before another one, whose code is no lower: where it applies it is the lowest, and where it does not the
other one is left. -/
theorem TakesLowest.before (c c' : FaultCause) (hle : c.code.toNat ≤ c'.code.toNat)
    (hfault : b → o = .next (raiseFault c s))
    (hrest : ¬b → TakesLowest (fun code => code = c'.code.toNat ∧ b') s o) :
    TakesLowest (fun code => code = c.code.toNat ∧ b ∨ code = c'.code.toNat ∧ b') s o := by
  by_cases hb : b
  · constructor
    · rintro code ⟨happlies, hlow⟩
      have hcode : code = c.code.toNat := by
        have := hlow _ (.inl ⟨rfl, hb⟩)
        omega
      rw [hcode]
      exact ⟨_, hfault hb, faultsWith_raiseFault c s⟩
    · exact fun hno => absurd (.inl ⟨rfl, hb⟩) (hno _)
  · simpa only [hb, and_false, false_or] using hrest hb

end Rows

/-! ### Every command -/

/-- Each command by its row of the table of R203. -/
theorem takesLowest_exec (i : Instr) (s : State) : TakesLowest (CauseApplies i s) s (exec i s) := by
  cases i with
  | tenpow n => exact .of_ite .powRange rfl rfl
  | mulp10 n =>
    refine .before .powRange .uncheckedOverflow (by decide) (exec_of_maxPow_lt (m := .floor) · (by simp) s)
      fun hn => ?_
    have hexec := exec_mulp10_of_le (not_lt.mp hn) s
    rw [← ite_not] at hexec
    exact .of_ite .uncheckedOverflow hexec rfl
  | cmulp10 n =>
    refine .one .powRange (exec_of_maxPow_lt (m := .floor) · (by simp) s) fun hn => ?_
    have hexec := exec_cmulp10_of_le (not_lt.mp hn) s
    split_ifs at hexec <;> exact keepsFault_of_next hexec rfl
  | adj s1 s2 =>
    refine .before .scaleRange .uncheckedOverflow (by decide) (exec_of_maxScale_lt · (.inl rfl) s) fun hscale => ?_
    obtain ⟨h1, h2⟩ := not_or.mp hscale
    have hexec := exec_adj_of_le (not_lt.mp h1) (not_lt.mp h2) s
    rw [← ite_not] at hexec
    exact .of_ite .uncheckedOverflow hexec rfl
  | cadj s1 s2 => exact .of_ite .scaleRange rfl rfl
  | sdivf p =>
    exact .before .powRange .zeroDivisor (by decide) (exec_of_maxPow_lt (m := .floor) · (by simp) s)
      fun hp => .of_ite .zeroDivisor (exec_sdivf_of_le (not_lt.mp hp) s) (fault_deliverPair _ s)
  | dmdf =>
    exact .before .zeroDivisor .divisorSign (by decide) (if_pos ·)
      fun hy => .of_ite .divisorSign (if_neg hy) (fault_deliverPair _ s)
  | divmodf =>
    exact .before .zeroDivisor .divOverflow (by decide) (if_pos ·)
      fun hy => .of_ite .divOverflow (exec_divmodf_of_ne_zero hy) rfl
  | divr m =>
    exact .before .zeroDivisor .divOverflow (by decide) (if_pos ·)
      fun hy => .of_ite .divOverflow (exec_divr_of_ne_zero m hy) rfl
  | sdivr p m =>
    exact .before .powRange .zeroDivisor (by decide) (exec_of_maxPow_lt (m := m) · (by simp) s)
      fun hp => .of_ite .zeroDivisor (exec_sdivr_of_le (not_lt.mp hp) m s) (fault_deliverRounded _ _ _ s)
  | mdtpr p m => exact .of_ite .powRange rfl (fault_deliverRounded _ _ _ s)
  | parse => exact .one .textRange (if_pos ·) fun hlen => keepsFault_parse_of_le (not_lt.mp hlen)

/-- Settles O51: the rule of R202, read for the causes of the command's row. -/
theorem lowestApplicableCauseIsTaken : Obligations.LowestApplicableCauseIsTaken := takesLowest_exec

end Sys2Proof.Machine
end

section
/-! PROOFS. A command and its word (30_encoding.md R72, R75, R80): decoding undoes encoding, a word that decodes is the
encoding of its command, the fields of a decoded command are bits of the word, and R77 lists the illegal words. -/

namespace Sys2Proof

/-! ### Six words (R72, R75) -/

/-- Settles O1: the decoder is run on each of the six words. -/
theorem wordsWrittenOutDecode : Obligations.WordsWrittenOutDecode := by
  unfold Obligations.WordsWrittenOutDecode
  decide

/-! ### Decoding undoes encoding -/

theorem fitsByteField_iff (n : Nat) : fitsByteField n = true ↔ n ≤ 255 := by simp [fitsByteField]

theorem toNat_ofNat_of_fits {n : Nat} (h : fitsByteField n = true) : (BitVec.ofNat 8 n).toNat = n := by
  rw [BitVec.toNat_ofNat, Nat.mod_eq_of_lt]
  exact Nat.lt_succ_of_le ((fitsByteField_iff n).mp h)

theorem toNat_ofNat_number (m : RoundingMode) : (BitVec.ofNat 4 m.number).toNat = m.number := by
  cases m <;> rfl

/-- The mode field of a command's word gives the mode back, where the command takes one (R76). -/
theorem modeOf_packWord {o : Opcode} (h : o.takesMode = true) (op : BitVec 8) (m : RoundingMode) (p p2 : Nat) :
    modeOf o (packWord op m.number p p2) = some m := by
  rw [modeOf, if_pos h, modeField_packWord, toNat_ofNat_number, ofNumber_number]

/-- The command is read back from its word: its mode, and its numbers from the fields that hold them. -/
theorem commandOf_encode {i : Instr} (h : i.wf = true) :
    ∃ m, modeOf i.opcode (encode i) = some m ∧
      i = commandOf i.opcode (pField (encode i)).toNat (p2Field (encode i)).toNat m := by
  cases i with
  | tenpow n | mulp10 n | cmulp10 n | sdivf n =>
    exact ⟨.floor, rfl, by simp [encode, Instr.opcode, commandOf, toNat_ofNat_of_fits h]⟩
  | adj s1 s2 | cadj s1 s2 =>
    obtain ⟨h1, h2⟩ := Bool.and_eq_true_iff.mp h
    exact ⟨.floor, rfl, by simp [encode, Instr.opcode, commandOf, toNat_ofNat_of_fits h1, toNat_ofNat_of_fits h2]⟩
  | dmdf | divmodf | parse => exact ⟨.floor, rfl, rfl⟩
  | divr m => exact ⟨m, modeOf_packWord rfl _ _ _ _, rfl⟩
  | sdivr p m | mdtpr p m =>
    exact ⟨m, modeOf_packWord rfl _ _ _ _, by simp [encode, Instr.opcode, commandOf, toNat_ofNat_of_fits h]⟩

/-- Settles O2: the word passes the test of its command's row, and its fields give the command back. -/
theorem decodeOfEncodeIsTheCommand : Obligations.DecodeOfEncodeIsTheCommand := by
  intro i hwf
  obtain ⟨m, hmode, hi⟩ := commandOf_encode hwf
  exact (decode_eq_command_iff _ _).mpr ⟨i.opcode, m, encode_rowTest i, hmode, hi⟩

/-! ### Encoding undoes decoding -/

theorem fitsByteField_toNat (x : BitVec 8) : fitsByteField x.toNat = true :=
  (fitsByteField_iff _).mpr (Nat.le_of_lt_succ x.isLt)

theorem wf_commandOf (o : Opcode) (x y : BitVec 8) (m : RoundingMode) :
    (commandOf o x.toNat y.toNat m).wf = true := by
  cases o <;> simp [commandOf, Instr.wf, fitsByteField_toNat]

/-- Where a row takes a mode, the mode field is the mode's number (R76). -/
theorem modeField_of_modeOf {o : Opcode} {w : CmdWord} {m : RoundingMode} (ho : o.takesMode = true)
    (h : modeOf o w = some m) : modeField w = BitVec.ofNat 4 m.number := by
  rw [modeOf, if_pos ho, ofNumber_eq_some_iff] at h
  rw [← h, BitVec.ofNat_toNat, BitVec.setWidth_eq]

/-- A word is what its fields pack to. -/
theorem packWord_of_fields {w : CmdWord} {op : BitVec 8} {m p p2 : Nat} (hop : opField w = op)
    (hrsv : rsvField w = 0#4) (hmode : modeField w = BitVec.ofNat 4 m) (hp : pField w = BitVec.ofNat 8 p)
    (hp2 : p2Field w = BitVec.ofNat 8 p2) : packWord op m p p2 = w := by
  apply word_ext
  · rw [p2Field_packWord, hp2]
  · rw [pField_packWord, hp]
  · rw [rsvField_packWord, hrsv]
  · rw [modeField_packWord, hmode]
  · rw [opField_packWord, hop]

/-- A word of a row is the encoding of the row's command with the word's fields, for the other fields are zero. -/
theorem encode_commandOf {o : Opcode} {w : CmdWord} {m : RoundingMode} (htest : w &&& o.mask = o.matchWord)
    (hmode : modeOf o w = some m) : encode (commandOf o (pField w).toNat (p2Field w).toNat m) = w := by
  obtain ⟨hop, hrsv, hnoMode, hnoP, hnoP2⟩ := (rowTest_iff o w).mp htest
  have hp : pField w = BitVec.ofNat 8 (pField w).toNat := by simp
  have hp2 : p2Field w = BitVec.ofNat 8 (p2Field w).toNat := by simp
  cases o with
  | tenpow | mulp10 | cmulp10 | sdivf => exact packWord_of_fields hop hrsv (hnoMode rfl) hp (hnoP2 (by decide))
  | adj | cadj => exact packWord_of_fields hop hrsv (hnoMode rfl) hp hp2
  | dmdf | divmodf | parse =>
    exact packWord_of_fields hop hrsv (hnoMode rfl) (hnoP (by decide)) (hnoP2 (by decide))
  | divr => exact packWord_of_fields hop hrsv (modeField_of_modeOf rfl hmode) (hnoP (by decide)) (hnoP2 (by decide))
  | sdivr | mdtpr => exact packWord_of_fields hop hrsv (modeField_of_modeOf rfl hmode) hp (hnoP2 (by decide))

/-- Settles O3: the word passes the test of the row it selects, which leaves no bit that the command does not hold. -/
theorem encodeOfDecodeIsTheWord : Obligations.EncodeOfDecodeIsTheWord := by
  intro w i h
  obtain ⟨o, m, htest, hmode, rfl⟩ := (decode_eq_command_iff w i).mp h
  exact ⟨wf_commandOf _ _ _ _, encode_commandOf htest hmode⟩

/-! ### The fields of a decoded command -/

/-- The modes in the order of their numbers (R76). -/
theorem getElem?_modes (n : Nat) :
    [RoundingMode.floor, .ceiling, .up, .down, .halfUp, .halfDown, .halfEven, .halfCeiling, .halfFloor][n]? =
      RoundingMode.ofNumber n := by
  rcases Nat.lt_or_ge n 9 with h | h
  · interval_cases n <;> rfl
  · obtain ⟨k, rfl⟩ := Nat.exists_eq_add_of_le' h
    rfl

/-- Settles O5: a decoded command is that of its row with the fields of the word. -/
theorem decodedFieldsAreTheBits : Obligations.DecodedFieldsAreTheBits := by
  intro w
  simp only [getElem?_modes, decode_eq_command_iff]
  refine ⟨?_, ?_, ?_, ?_⟩
  · rintro n (⟨o, m, -, -, h⟩ | ⟨o, m, -, -, h⟩ | ⟨o, m, -, -, h⟩ | ⟨o, m, -, -, h⟩) <;> cases o <;> cases h <;> rfl
  · rintro s1 s2 (⟨o, m, -, -, h⟩ | ⟨o, m, -, -, h⟩) <;> cases o <;> cases h <;> exact ⟨rfl, rfl⟩
  · rintro p m (⟨o, m', -, hmode, h⟩ | ⟨o, m', -, hmode, h⟩) <;> cases o <;> cases h <;> exact ⟨rfl, hmode⟩
  · rintro m ⟨o, m', -, hmode, h⟩
    cases o <;> cases h
    exact hmode

/-! ### The illegal words -/

theorem number_injective {o o' : Opcode} (h : o.number = o'.number) : o = o' := by
  have hrow := opcodeOf_number o
  rw [h, opcodeOf_number] at hrow
  exact (Option.some.inj hrow).symm

/-- A word with the opcode of a row decodes when it meets that row's conditions on the other fields. -/
theorem decodes_iff_of_opField {o : Opcode} {w : CmdWord} (hop : opField w = o.number) :
    (∃ i, decode w = .command i) ↔
      rsvField w = 0#4 ∧ (o.takesMode = false → modeField w = 0#4) ∧
        (o ∈ [Opcode.dmdf, .divmodf, .divr, .parse] → pField w = 0#8) ∧
        (o ∉ [Opcode.adj, .cadj] → p2Field w = 0#8) ∧ (o.takesMode = true → (modeField w).toNat ≤ 8) := by
  simp only [decode_eq_command_iff, ← exists_modeOf_iff]
  constructor
  · rintro ⟨i, o', m, htest, hmode, -⟩
    obtain ⟨hop', hrsv, hnoMode, hnoP, hnoP2⟩ := (rowTest_iff o' w).mp htest
    obtain rfl : o = o' := number_injective (hop.symm.trans hop')
    exact ⟨hrsv, hnoMode, hnoP, hnoP2, m, hmode⟩
  · rintro ⟨hrsv, hnoMode, hnoP, hnoP2, m, hmode⟩
    exact ⟨_, o, m, (rowTest_iff o w).mpr ⟨hop, hrsv, hnoMode, hnoP, hnoP2⟩, hmode, rfl⟩

theorem toNat_mem_opcodes_iff (op : BitVec 8) :
    op.toNat ∈ [0x01, 0x02, 0x03, 0x04, 0x05, 0x10, 0x11, 0x20, 0x30, 0x31, 0x32, 0x40] ↔
      ∃ o, op = Opcode.number o := by
  have values : [0x01, 0x02, 0x03, 0x04, 0x05, 0x10, 0x11, 0x20, 0x30, 0x31, 0x32, 0x40] =
      Opcode.all.map fun o => o.number.toNat := rfl
  rw [values]
  constructor
  · intro h
    obtain ⟨o, -, ho⟩ := List.mem_map.mp h
    exact ⟨o, BitVec.eq_of_toNat_eq ho.symm⟩
  · rintro ⟨o, rfl⟩
    cases o <;> decide

/-- Settles O6: a word whose opcode is none of the twelve has no row, and any other word has one row with conditions on
the other fields, whose negations the rule lists. -/
theorem illegalWordsAreThoseListed : Obligations.IllegalWordsAreThoseListed := by
  intro w op mode rsv p p2
  have hlisted : op ∈ _ ↔ _ := toNat_mem_opcodes_iff (opField w)
  rw [decode_illegal_iff, ← not_exists]
  by_cases hop : ∃ o, opField w = Opcode.number o
  · rw [or_iff_right (not_not.mpr (hlisted.mpr hop))]
    obtain ⟨o, hop⟩ := hop
    have hopNat : op = o.number.toNat := congrArg BitVec.toNat hop
    have zero {n : Nat} (x : BitVec n) : x = BitVec.ofNat n 0 ↔ x.toNat = 0 := by simp [← BitVec.toNat_inj]
    rw [decodes_iff_of_opField hop, zero, zero, zero, zero, hopNat]
    change ¬(rsv = 0 ∧ (_ → mode = 0) ∧ (_ → p = 0) ∧ (_ → p2 = 0) ∧ (_ → mode ≤ 8)) ↔ _
    cases o <;> simp [Opcode.takesMode, Opcode.number] <;> omega
  · refine iff_of_true ?_ (.inl fun hmem => hop (hlisted.mp hmem))
    rintro ⟨i, hi⟩
    obtain ⟨o, -, htest, -⟩ := (decode_eq_command_iff w i).mp hi
    exact hop ⟨o, ((rowTest_iff o w).mp htest).1⟩

end Sys2Proof
end

section
/-! PROOFS. The invariant of the machine (10_state.md R25, R26; 00_scope.md R19; 20_memory.md R50) and the fields of
`STATUS` at their bits (R25, R33). -/

namespace Sys2Proof.Machine

/-! ### What keeps the invariant -/

/-- The invariant speaks of the configuration, the text, the scale and the `STATUS` word: a state that agrees on these
meets it too. -/
theorem State.Inv.congr {s t : State} (h : s.Inv) (hconfig : t.config = s.config) (htxt : t.txt = s.txt)
    (hrsc : t.rsc = s.rsc) (hstatus : t.statusWord = s.statusWord) : t.Inv where
  config := hconfig ▸ h.config
  text := by
    rw [State.textWf, hconfig, htxt]
    exact h.text
  scale := by
    rw [State.scaleWf, hrsc]
    exact h.scale
  status := by
    rw [State.statusWf, hstatus]
    exact h.status

theorem State.Inv.writeOperandReg {s : State} (h : s.Inv) (r : OperandReg) (v : Word) :
    (writeOperandReg r v s).Inv := by
  cases r <;> exact h.congr rfl rfl rfl rfl

theorem State.Inv.writeText {s : State} (h : s.Inv) {i : Nat} (b : Byte) (hi : i < s.config.textMax) :
    State.Inv { s with txt := Memory.write s.txt i b } where
  config := h.config
  text := ⟨Memory.write_wf i b h.text.1, Memory.write_below b hi h.text.2⟩
  scale := h.scale
  status := h.status

theorem State.Inv.resetBlock {s : State} (h : s.Inv) : (resetBlock s).Inv where
  config := h.config
  text := by simp [State.textWf, Memory.wf]
  scale := by simp [State.scaleWf]
  status := by
    have hzero : (Machine.resetBlock s).statusWord = 0#32 := statusWord_reset
    rw [State.statusWf, hzero]
    decide

/-- A command that ends leaves a legal `STATUS` and scale, and touches neither the text nor the configuration. -/
theorem State.Inv.endsAs {s t : State} (h : s.Inv) (hn : s.status.fault = none) (he : EndsAs s t) : t.Inv := by
  obtain ⟨-, -, -, -, htxt, hconfig, -, -⟩ := he.frame
  refine ⟨hconfig ▸ h.config, ?_, he.scaleWf, he.statusWf hn⟩
  rw [State.textWf, hconfig, htxt]
  exact h.text

/-- Every host action keeps the invariant. -/
theorem perform_keeps_inv {act : HostAction} {s t : State} (hs : s.Inv) (h : perform act s = .next t) : t.Inv := by
  rcases perform_cases h with ⟨w, -, ⟨-, rfl⟩ | ⟨hn, he⟩⟩ | ⟨r, v, -, rfl⟩ | ⟨n, -, rfl⟩ | ⟨i, b, -, hi, rfl⟩ |
    ⟨r, v, -, rfl⟩ | ⟨r, v, -, -, rfl⟩ | ⟨i, b, -, -, rfl⟩ | ⟨-, rfl⟩ | ⟨r, v, -, rfl⟩ | ⟨n, -, rfl | rfl⟩
  · exact hs
  · exact hs.endsAs hn he
  · exact hs.writeOperandReg r v
  · exact hs.congr rfl rfl rfl rfl
  · exact hs.writeText b hi
  · exact hs
  · exact hs.congr rfl rfl rfl rfl
  · exact hs.congr rfl rfl rfl rfl
  · exact hs.resetBlock
  · exact hs.writeOperandReg r v
  · exact hs
  · exact hs.congr rfl rfl rfl rfl

/-- Settles O21: a step takes the first line of the script, which the invariant does not speak of, and performs it. -/
theorem stepKeepsTheInvariant : Obligations.StepKeepsTheInvariant := by
  intro s t hs h
  rcases step_cases h with ⟨-, rfl⟩ | ⟨act, rest, -, hact⟩
  · exact hs
  · have hpopped : State.Inv { s with script := rest } := hs.congr rfl rfl rfl rfl
    exact perform_keeps_inv hpopped hact

/-- Settles O20: `TEXT_MAX` is the default, the buffer and `RSC` hold nothing, and the `STATUS` word is zero. -/
theorem resetMeetsTheInvariant : Obligations.ResetMeetsTheInvariant where
  config := by decide
  text := ⟨Memory.reset_wf, List.forall_mem_nil _⟩
  scale := by simp [State.scaleWf, State.reset]
  status := by
    rw [State.statusWf, statusWord_reset]
    decide

/-! ### `STATUS` field by field -/

theorem getLsbD_statusWord_flags (s : State) :
    s.statusWord.getLsbD 0 = s.r0.isSome ∧ s.statusWord.getLsbD 1 = s.r1.isSome ∧
      s.statusWord.getLsbD 2 = s.rsc.isSome ∧ s.statusWord.getLsbD 3 = s.status.ovf ∧
      s.statusWord.getLsbD 4 = s.status.ovfb := by
  simp only [State.statusWord, BitVec.getLsbD_append]
  simp

theorem extractLsb'_statusWord_perr (s : State) : s.statusWord.extractLsb' 5 3 = perrField s.status.perr := by
  simp only [State.statusWord, BitVec.extractLsb'_append_eq_ite]
  simp

theorem getLsbD_statusWord_fault (s : State) : s.statusWord.getLsbD 8 = s.faultOutput := by
  simp only [State.statusWord, State.faultOutput, BitVec.getLsbD_append]
  simp

theorem extractLsb'_statusWord_fcause (s : State) : s.statusWord.extractLsb' 9 4 = fcauseField s.status.fault := by
  simp only [State.statusWord, BitVec.extractLsb'_append_eq_ite]
  simp

theorem extractLsb'_statusWord_rest (s : State) : s.statusWord.extractLsb' 13 19 = 0#19 := by
  simp only [State.statusWord, BitVec.extractLsb'_append_eq_ite]
  simp

/-- Settles O19: each field is the piece of the word at its bits, with the codes of the two tables. -/
theorem statusFieldsStandAtTheirBits : Obligations.StatusFieldsStandAtTheirBits := by
  intro s
  obtain ⟨hv0, hv1, hvs, hovf, hovfb⟩ := getLsbD_statusWord_flags s
  refine ⟨hv0, hv1, hvs, hovf, hovfb, ?_, getLsbD_statusWord_fault s, ?_, extractLsb'_statusWord_rest s,
    (getLsbD_statusWord_fault s).symm⟩
  · rw [extractLsb'_statusWord_perr]
    rcases s.status.perr with _ | _ | _ | _ | _ <;> rfl
  · rw [extractLsb'_statusWord_fcause]
    rcases s.status.fault with _ | _ | _ | _ | _ | _ | _ | _ | _ <;> rfl

end Sys2Proof.Machine
end

section
/-! PROOFS. The command port and the host accesses (30_encoding.md R70, R77; 70_reset_and_hazards.md R230, R238;
20_memory.md R54, R55, R58, R62; 60_exceptions.md R206, R207): what the step by one host action answers, and which
places an action can write. -/

namespace Sys2Proof.Machine

open Sys2Proof.Reference

/-! ### The step by one host action -/

/-- `step_action` in the words of the statements. -/
theorem step_popped {s : State} {act : HostAction} {rest : List HostAction} (h : s.script = act :: rest) :
    step s = perform act (popped s rest) := step_action h

theorem step_popped_cons (s : State) (act : HostAction) (rest : List HostAction) :
    step (popped s (act :: rest)) = perform act (popped s rest) := rfl

theorem issueCommand_of_fault {s : State} (w : CmdWord) (h : s.status.fault ≠ none) : issueCommand w s = .next s :=
  if_pos (Option.isSome_iff_ne_none.mpr h)

theorem issueCommand_of_command {s : State} {w : CmdWord} {i : Instr} (hf : s.status.fault = none)
    (hd : decode w = .command i) : issueCommand w s = exec i s := by
  simp [issueCommand, hf, hd]

theorem issueCommand_of_illegal {s : State} {w : CmdWord} {why : IllegalWord} (hf : s.status.fault = none)
    (hd : decode w = .illegal why) : issueCommand w s = .next (raiseFault .illegalCmd s) := by
  simp [issueCommand, hf, hd]

theorem perform_writeText_of_lt {s : State} {i : Nat} (b : Byte) (h : i < s.config.textMax) :
    perform (.writeText i b) s = .next { s with txt := Memory.write s.txt i b } := if_pos h

theorem readHostReg_popped (r : HostReg) (s : State) (rest : List HostAction) :
    readHostReg r (popped s rest) = readHostReg r s := by
  cases r <;> rfl

/-- A read of a register that holds a value (R238). -/
theorem step_readReg_of_some {s : State} {r : HostReg} {rest : List HostAction} {v : Word}
    (h : s.script = .readReg r :: rest) (hv : readHostReg r s = some v) :
    step s = .next (popped (hostTakes v s) rest) := by
  simp only [step_popped h, perform, readRegister, readHostReg_popped, hv]
  rfl

/-- A read of an invalid result register (R24). -/
theorem step_readReg_of_none {s : State} {r : HostReg} {rest : List HostAction}
    (h : s.script = .readReg r :: rest) (hv : readHostReg r s = none) : step s = .fault (.invalidResultRead r) := by
  simp only [step_popped h, perform, readRegister, readHostReg_popped, hv]

theorem perform_readText_of_some {s : State} {i : Nat} {b : Byte} (hi : i < s.config.textMax)
    (h : Memory.read s.txt i = some b) : perform (.readText i) s = .next (hostTakes (b.setWidth 128) s) := by
  simp only [perform, readTextByte, if_pos hi, h]

theorem perform_readText_of_none {s : State} {i : Nat} (hi : i < s.config.textMax)
    (h : Memory.read s.txt i = none) : perform (.readText i) s = .fault (.unwrittenText i) := by
  simp only [perform, readTextByte, if_pos hi, h]

/-! ### The command port -/

/-- Settles O7: the block has not faulted, so the port decodes the word and executes its command. -/
theorem stepRunsDecodedCommand : Obligations.StepRunsDecodedCommand := by
  intro s w rest i hs hf hd
  exact (step_popped hs).trans (issueCommand_of_command hf hd)

/-- Settles O8: the block has not faulted, so the port decodes the word and takes the fault of code 1. -/
theorem illegalWordRaisesIllegalCmd : Obligations.IllegalWordRaisesIllegalCmd := by
  intro s w rest why hs hf hd
  exact ⟨_, (step_popped hs).trans (issueCommand_of_illegal hf hd), faultsWith_raiseFault .illegalCmd (popped s rest)⟩

/-- Settles O9: only the command port looks at `FAULT`. -/
theorem faultedBlockIgnoresCommandsOnly : Obligations.FaultedBlockIgnoresCommandsOnly := by
  intro s rest hf
  refine ⟨fun w hs => ?_, fun v hs => step_popped hs, fun v hs => step_popped hs, fun v hs => step_popped hs,
    fun n hs => step_popped hs, fun i b hs hi => ?_, fun hs => step_popped hs⟩
  · exact (step_popped hs).trans (issueCommand_of_fault w hf)
  · exact ⟨_, (step_popped hs).trans (perform_writeText_of_lt b hi), Memory.read_write_same s.txt i b, rfl⟩

/-! ### Which places an action writes -/

theorem writeOperandReg_results (r : OperandReg) (v : Word) (s : State) :
    (writeOperandReg r v s).r0 = s.r0 ∧ (writeOperandReg r v s).r1 = s.r1 ∧ (writeOperandReg r v s).rsc = s.rsc ∧
      (writeOperandReg r v s).status = s.status := by
  cases r <;> exact ⟨rfl, rfl, rfl, rfl⟩

/-- Only an issue and a reset write the results and `STATUS` (R22, R34). -/
theorem perform_keeps_results {act : HostAction} {s t : State} (h : perform act s = .next t)
    (hissue : ∀ w, act ≠ .issue w) (hreset : act ≠ .reset) :
    t.r0 = s.r0 ∧ t.r1 = s.r1 ∧ t.rsc = s.rsc ∧ t.status = s.status := by
  rcases perform_cases h with ⟨w, hact, -⟩ | ⟨r, v, -, rfl⟩ | ⟨n, -, rfl⟩ | ⟨i, b, -, -, rfl⟩ | ⟨r, v, -, rfl⟩ |
    ⟨r, v, -, -, rfl⟩ | ⟨i, b, -, -, rfl⟩ | ⟨hact, -⟩ | ⟨r, v, -, rfl⟩ | ⟨n, -, rfl | rfl⟩
  · exact absurd hact (hissue w)
  · exact writeOperandReg_results r v s
  · exact ⟨rfl, rfl, rfl, rfl⟩
  · exact ⟨rfl, rfl, rfl, rfl⟩
  · exact ⟨rfl, rfl, rfl, rfl⟩
  · exact ⟨rfl, rfl, rfl, rfl⟩
  · exact ⟨rfl, rfl, rfl, rfl⟩
  · exact absurd hact hreset
  · exact writeOperandReg_results r v s
  · exact ⟨rfl, rfl, rfl, rfl⟩
  · exact ⟨rfl, rfl, rfl, rfl⟩

/-- An action other than a reset writes at most one of the places the host writes: an operand register, `TLEN` or a byte
of the text (R21, R29, R30). -/
theorem perform_writes {act : HostAction} {s t : State} (h : perform act s = .next t) (hreset : act ≠ .reset) :
    (∃ r v, (act = .writeOperand r v ∨ act = .writeLastRead r) ∧ t = writeOperandReg r v s) ∨
      (∃ n, act = .writeTlen n ∧ t = writeTlenReg n s) ∨
      (∃ i b, act = .writeText i b ∧ t = { s with txt := Memory.write s.txt i b }) ∨
      (t.a = s.a ∧ t.b = s.b ∧ t.c = s.c ∧ t.tlen = s.tlen ∧ t.txt = s.txt ∧ t.config = s.config) := by
  rcases perform_cases h with ⟨w, -, ⟨-, rfl⟩ | ⟨-, he⟩⟩ | ⟨r, v, hact, ht⟩ | ⟨n, hact, ht⟩ | ⟨i, b, hact, -, ht⟩ |
    ⟨r, v, -, rfl⟩ | ⟨r, v, -, -, rfl⟩ | ⟨i, b, -, -, rfl⟩ | ⟨hact, -⟩ | ⟨r, v, hact, ht⟩ | ⟨n, -, rfl | rfl⟩
  · exact .inr (.inr (.inr ⟨rfl, rfl, rfl, rfl, rfl, rfl⟩))
  · obtain ⟨ha, hb, hc, htlen, htxt, hconfig, -, -⟩ := he.frame
    exact .inr (.inr (.inr ⟨ha, hb, hc, htlen, htxt, hconfig⟩))
  · exact .inl ⟨r, v, .inl hact, ht⟩
  · exact .inr (.inl ⟨n, hact, ht⟩)
  · exact .inr (.inr (.inl ⟨i, b, hact, ht⟩))
  · exact .inr (.inr (.inr ⟨rfl, rfl, rfl, rfl, rfl, rfl⟩))
  · exact .inr (.inr (.inr ⟨rfl, rfl, rfl, rfl, rfl, rfl⟩))
  · exact .inr (.inr (.inr ⟨rfl, rfl, rfl, rfl, rfl, rfl⟩))
  · exact absurd hact hreset
  · exact .inl ⟨r, v, .inr hact, ht⟩
  · exact .inr (.inr (.inr ⟨rfl, rfl, rfl, rfl, rfl, rfl⟩))
  · exact .inr (.inr (.inr ⟨rfl, rfl, rfl, rfl, rfl, rfl⟩))

/-- Settles O18: the results and `STATUS` by `perform_keeps_results`, the host's places by the one place the action
writes. -/
theorem onlyTheNamedWriterChangesAPlace : Obligations.OnlyTheNamedWriterChangesAPlace := by
  intro s t act rest hs h
  rw [step_popped hs] at h
  have hresults := perform_keeps_results h
  refine ⟨hresults, ?_⟩
  by_cases hreset : act = .reset
  · subst hreset
    cases h
    simp [popped]
  · rcases perform_writes h hreset with ⟨r, v, hact, rfl⟩ | ⟨n, hact, rfl⟩ | ⟨i, b, hact, rfl⟩ | hkept
    · cases r <;> rcases hact with rfl | rfl <;> simp [popped]
    · simp [hact, popped]
    · simp [hact, popped]
    · obtain ⟨ha, hb, hc, htlen, htxt, hconfig⟩ := hkept
      exact ⟨fun _ _ _ => ha, fun _ _ _ => hb, fun _ _ _ => hc, fun _ _ => htlen, fun _ _ => htxt, hconfig⟩

/-- Settles O10: a faulted block ignores an issue, and no other action but a reset writes the results or `STATUS`. -/
theorem faultIsStickyUntilReset : Obligations.FaultIsStickyUntilReset := by
  intro s t c hf hhead h
  rcases step_cases h with ⟨-, rfl⟩ | ⟨act, rest, hs, hact⟩
  · exact ⟨rfl, rfl, rfl, rfl⟩
  · by_cases hissue : ∃ w, act = .issue w
    · obtain ⟨w, rfl⟩ := hissue
      have hfault : (popped s rest).status.fault ≠ none := Option.ne_none_iff_exists'.mpr ⟨c, hf⟩
      cases hact.symm.trans (issueCommand_of_fault w hfault)
      exact ⟨rfl, rfl, rfl, rfl⟩
    · have hreset : act ≠ .reset := fun hreset => hhead (by rw [hs, hreset, List.head?_cons])
      obtain ⟨h0, h1, hsc, hstatus⟩ := perform_keeps_results hact (not_exists.mp hissue) hreset
      exact ⟨hstatus, h0, h1, hsc⟩

/-- Settles O11: the reset action is `resetBlock`, whose every field is known. -/
theorem resetActionResetsAllState : Obligations.ResetActionResetsAllState := by
  intro s rest hs
  exact ⟨_, step_popped hs, rfl, rfl, rfl, rfl, rfl, rfl, statusWord_reset, faultOutput_reset, rfl, Memory.read_nil,
    rfl, rfl, rfl⟩

/-! ### Reads and writes of the host -/

/-- Settles O13: each write puts the value where the read of the next step finds it. -/
theorem hostReadReturnsTheLatestWrite : Obligations.HostReadReturnsTheLatestWrite := by
  intro s rest
  refine ⟨fun r h v hmem hs => ?_, fun n hs => ?_, fun i b hi hs => ?_⟩
  · simp only [List.mem_cons, Prod.mk.injEq, List.not_mem_nil, or_false] at hmem
    rcases hmem with ⟨rfl, rfl⟩ | ⟨rfl, rfl⟩ | ⟨rfl, rfl⟩ <;>
      exact ⟨_, _, step_popped hs, step_readReg_of_some (rest := rest) rfl rfl, rfl, rfl⟩
  · exact ⟨_, _, step_popped hs, step_readReg_of_some (rest := rest) rfl rfl, rfl, rfl⟩
  · exact ⟨_, _, (step_popped hs).trans (perform_writeText_of_lt b hi),
      (step_popped (rest := rest) rfl).trans (perform_readText_of_some hi (Memory.read_write_same s.txt i b)), rfl, rfl⟩

/-- Settles O14: by the law of the text buffer that a write changes what is read at its address only. -/
theorem textWriteChangesOneByte : Obligations.TextWriteChangesOneByte := by
  intro s i b rest hs hi
  exact ⟨_, (step_popped hs).trans (perform_writeText_of_lt b hi), fun j => Memory.read_write s.txt i j b, rfl⟩

/-- Settles O15: the write is performed as no change. -/
theorem readOnlyWritesAreIgnored : Obligations.ReadOnlyWritesAreIgnored := fun _ _ _ _ hs => step_popped hs

/-- Settles O16: by what a read of each result register returns, its value or none. -/
theorem resultReadsNeedValidity : Obligations.ResultReadsNeedValidity := by
  intro s rest
  refine ⟨fun v hv hs => ?_, fun v hv hs => ?_, fun v hv hs => ?_, fun hs => step_popped hs, fun hv hs => ?_,
    fun hv hs => ?_, fun hv hs => ?_⟩
  · exact step_readReg_of_some hs hv
  · exact step_readReg_of_some hs hv
  · exact step_readReg_of_some hs (congrArg (Option.map _) hv)
  · exact step_readReg_of_none hs hv
  · exact step_readReg_of_none hs hv
  · exact step_readReg_of_none hs (congrArg (Option.map _) hv)

/-- Settles O17: the location is tested first, then whether it holds a byte. -/
theorem textAccessStopsWhereNothingIsHeld : Obligations.TextAccessStopsWhereNothingIsHeld := by
  intro s i rest
  refine ⟨fun hi hs => ?_, fun b hi hs => ?_, fun hi hnone hs => ?_⟩
  · exact (step_popped hs).trans (if_neg (Nat.not_lt.mpr hi))
  · exact (step_popped hs).trans (if_neg (Nat.not_lt.mpr hi))
  · exact (step_popped hs).trans (perform_readText_of_none hi hnone)

end Sys2Proof.Machine
end

section
/-! PROOFS. The internal structure of the wide units agrees with the exact units (41_wide_arithmetic.md R121, R123 to
R126): the four-limb multiplier, word-by-word division, the quotient digit with its corrections, and the three tiers. -/

namespace Sys2Proof.Machine

/-! ### The multiplier (R121) -/

/-- `{h, l}` keeps the low half of each register. -/
theorem toNat_joinHalves_mod (h l : Word) :
    (joinHalves h l).toNat = h.toNat % 2 ^ 64 * 2 ^ 64 + l.toNat % 2 ^ 64 := by
  have hl : l.toNat % 2 ^ 64 < 2 ^ 64 := Nat.mod_lt _ (by norm_num)
  simp only [joinHalves, BitVec.toNat_append, BitVec.extractLsb'_toNat, Nat.shiftRight_zero]
  rw [← Nat.shiftLeft_add_eq_or_of_lt hl, Nat.shiftLeft_eq]

/-- The product of two half words, with room for two more. -/
theorem mul_half_le {x y : Nat} (hx : x < 2 ^ 64) (hy : y < 2 ^ 64) : x * y ≤ (2 ^ 64 - 1) * (2 ^ 64 - 1) :=
  Nat.mul_le_mul (by omega) (by omega)

theorem toNat_mul_halves {x y : Word} (hx : x.toNat < 2 ^ 64) (hy : y.toNat < 2 ^ 64) :
    (x * y).toNat = x.toNat * y.toNat := by
  have := mul_half_le hx hy
  rw [BitVec.toNat_mul, Nat.mod_eq_of_lt (by omega)]

/-- The first cross product takes the carry of the low product without loss. -/
theorem toNat_limbMulT (a b2 : Word) :
    (limbMulT a b2).toNat =
      (lowHalf a).toNat * (highHalf b2).toNat + (lowHalf a).toNat * (lowHalf b2).toNat / 2 ^ 64 := by
  have h1 := mul_half_le (lowHalf_lt a) (highHalf_lt b2)
  have h2 := mul_half_le (lowHalf_lt a) (lowHalf_lt b2)
  rw [limbMulT, BitVec.toNat_add, BitVec.toNat_ushiftRight, toNat_mul_halves (lowHalf_lt a) (highHalf_lt b2),
    toNat_mul_halves (lowHalf_lt a) (lowHalf_lt b2), Nat.shiftRight_eq_div_pow, Nat.mod_eq_of_lt (by omega)]

/-- The second cross product takes the low half of the first without loss. -/
theorem toNat_limbMulW (a b2 : Word) :
    (limbMulW a b2).toNat = (limbMulT a b2).toNat % 2 ^ 64 + (highHalf a).toNat * (lowHalf b2).toNat := by
  have h := mul_half_le (highHalf_lt a) (lowHalf_lt b2)
  rw [limbMulW, BitVec.toNat_add, toNat_lowHalf, toNat_mul_halves (highHalf_lt a) (lowHalf_lt b2),
    Nat.mod_eq_of_lt (by omega)]

/-- The product by its four limb products. -/
theorem mul_eq_limb_products (a b2 : Word) :
    a.toNat * b2.toNat =
      (highHalf a).toNat * (highHalf b2).toNat * 2 ^ 128 +
        ((lowHalf a).toNat * (highHalf b2).toNat + (highHalf a).toNat * (lowHalf b2).toNat) * 2 ^ 64 +
        (lowHalf a).toNat * (lowHalf b2).toNat := by
  rw [toNat_eq_halves a, toNat_eq_halves b2]
  ring

/-- Settles O31: no sum of the arrangement reaches 2^128, so each word is the digit of the product it stands for. -/
theorem limbMultiplierRefinesTheProduct : Obligations.LimbMultiplierRefinesTheProduct := by
  intro a b2
  have hprod := mul_eq_limb_products a b2
  have hlt : a.toNat * b2.toNat < 2 ^ 256 := (Nat.mul_lt_mul'' a.isLt b2.isLt).trans_eq (by norm_num)
  have hT := toNat_limbMulT a b2
  have hW := toNat_limbMulW a b2
  have hlow := toNat_mul_halves (lowHalf_lt a) (lowHalf_lt b2)
  have hhigh := toNat_mul_halves (highHalf_lt a) (highHalf_lt b2)
  generalize (lowHalf a).toNat * (lowHalf b2).toNat = p00 at *
  generalize (lowHalf a).toNat * (highHalf b2).toNat = p01 at *
  generalize (highHalf a).toNat * (lowHalf b2).toNat = p10 at *
  generalize (highHalf a).toNat * (highHalf b2).toNat = p11 at *
  refine Prod.ext (BitVec.eq_of_toNat_eq ?_) (BitVec.eq_of_toNat_eq ?_)
  · simp only [limbMul, wideMul, BitVec.toNat_add, BitVec.toNat_ushiftRight, Nat.shiftRight_eq_div_pow,
      BitVec.toNat_ofNat, hhigh, hW, hT]
    omega
  · simp only [limbMul, wideMul, toNat_joinHalves_mod, BitVec.toNat_ofNat, hlow, hW, hT]
    omega

/-! ### Recognising the exact quotient -/

/-- A result with the quotient equation and a remainder below the divisor is what the exact unit gives (R122). -/
theorem eq_wideDivRem {hi lo d : Word} {w : WideQuotient}
    (h : wideValue hi lo = wideValue w.qhi w.qlo * d.toNat + w.rem.toNat) (hr : w.rem.toNat < d.toNat) :
    w = wideDivRem hi lo d := by
  obtain ⟨qhi, qlo, rem⟩ := w
  obtain ⟨hq, hm⟩ : wideValue hi lo / d.toNat = wideValue qhi qlo ∧ wideValue hi lo % d.toNat = rem.toNat :=
    (Nat.div_mod_unique (by omega)).mpr ⟨by rw [h]; ring, hr⟩
  have hlo := qlo.isLt
  rw [wideDivRem, hq, hm, wideValue]
  simp only [WideQuotient.mk.injEq]
  refine ⟨BitVec.eq_of_toNat_eq ?_, BitVec.eq_of_toNat_eq ?_, BitVec.eq_of_toNat_eq ?_⟩ <;>
    simp only [BitVec.toNat_ofNat] <;> omega

/-! ### Tier 1 (R124) -/

/-- One digit of a long division: the quotient digit is a half word and the remainder is below the divisor. -/
theorem shiftIn_div_mod {d r u : Word} (hd : d.toNat < 2 ^ 64) (hr : r.toNat < d.toNat) (hu : u.toNat < 2 ^ 64) :
    (shiftIn r u / d).toNat < 2 ^ 64 ∧ (shiftIn r u % d).toNat < d.toNat ∧
      r.toNat * 2 ^ 64 + u.toNat = (shiftIn r u / d).toNat * d.toNat + (shiftIn r u % d).toNat := by
  rw [BitVec.toNat_udiv, BitVec.toNat_umod, toNat_shiftIn (hr.trans hd) hu]
  refine ⟨?_, Nat.mod_lt _ (by omega), (Nat.div_add_mod' _ _).symm⟩
  rw [Nat.div_lt_iff_lt_mul (by omega)]
  omega

/-- Settles O32: four digits of a long division, one for each half word of the dividend. -/
theorem dividerTierOneIsExact : Obligations.DividerTierOneIsExact := by
  intro hi lo d hd hlt
  have hpos : 0 < d.toNat := Nat.pos_of_ne_zero fun h0 => hd (BitVec.eq_of_toNat_eq h0)
  obtain ⟨hq3, hr3, h3⟩ := shiftIn_div_mod (r := 0#128) hlt hpos (highHalf_lt hi)
  obtain ⟨hq2, hr2, h2⟩ := shiftIn_div_mod hlt hr3 (lowHalf_lt hi)
  obtain ⟨hq1, hr1, h1⟩ := shiftIn_div_mod hlt hr2 (highHalf_lt lo)
  obtain ⟨hq0, hr0, h0⟩ := shiftIn_div_mod hlt hr1 (lowHalf_lt lo)
  refine eq_wideDivRem ?_ hr0
  simp only [divTier1, wideValue, toNat_joinHalves hq3 hq2, toNat_joinHalves hq1 hq0]
  rw [toNat_eq_halves hi, toNat_eq_halves lo]
  simp only [BitVec.toNat_ofNat, Nat.zero_mod, zero_mul, zero_add] at h3
  linear_combination 2 ^ 192 * h3 + 2 ^ 128 * h2 + 2 ^ 64 * h1 + h0

/-! ### The quotient digit (R125) -/

section Digit

variable {v u nxt : Word}

/-- What `digit(u, nxt)` stands for: the digit that `v` divides out of `u` and the next digit. -/
abbrev exactDigit (v u nxt : Word) : Nat := (u.toNat * 2 ^ 64 + nxt.toNat) / v.toNat

theorem exactDigit_lt (hu : u.toNat < v.toNat) (hn : nxt.toNat < 2 ^ 64) : exactDigit v u nxt < 2 ^ 64 := by
  rw [exactDigit, Nat.div_lt_iff_lt_mul (by omega)]
  omega

/-- The estimate from the high half of the divisor is not below the digit. -/
theorem exactDigit_le_estimate (hpos : 0 < (highHalf v).toNat) (hn : nxt.toNat < 2 ^ 64) :
    exactDigit v u nxt ≤ u.toNat / (highHalf v).toNat := by
  have hmul : exactDigit v u nxt * v.toNat ≤ u.toNat * 2 ^ 64 + nxt.toNat := Nat.div_mul_le_self _ _
  have hhalf : exactDigit v u nxt * ((highHalf v).toNat * 2 ^ 64) ≤ exactDigit v u nxt * v.toNat :=
    Nat.mul_le_mul_left _ (by rw [toNat_highHalf]; exact Nat.div_mul_le_self _ _)
  rw [← mul_assoc] at hhalf
  rw [Nat.le_div_iff_mul_le hpos]
  omega

/-- The estimate from the high half of a normalized divisor is at most two above the digit. -/
theorem estimate_le (hv : 2 ^ 127 ≤ v.toNat) (hu : u.toNat < v.toNat) :
    u.toNat / (highHalf v).toNat ≤ exactDigit v u nxt + 2 := by
  have hhalves := toNat_eq_halves v
  have hlow := lowHalf_lt v
  have hhigh : 2 ^ 63 ≤ (highHalf v).toNat := by omega
  generalize (highHalf v).toNat = vn1 at *
  generalize (lowHalf v).toNat = vn0 at *
  generalize hqe : u.toNat / vn1 = q
  have hmul : q * vn1 ≤ u.toNat := hqe ▸ Nat.div_mul_le_self _ _
  have hbound : q ≤ 2 ^ 64 + 1 := by
    rw [← hqe, ← Nat.lt_succ_iff, Nat.div_lt_iff_lt_mul (by omega)]
    omega
  by_contra hlt
  have hdigit : u.toNat * 2 ^ 64 + nxt.toNat < (q - 2) * v.toNat := by
    rw [← Nat.div_lt_iff_lt_mul (by omega)]
    exact Nat.lt_sub_of_add_lt (not_le.mp hlt)
  obtain ⟨k, rfl⟩ : ∃ k, q = k + 2 := Nat.exists_eq_add_of_le' (le_of_add_le_right (not_le.mp hlt).le)
  have hk : k * vn0 ≤ (2 ^ 64 - 1) * (2 ^ 64 - 1) := Nat.mul_le_mul (by omega) (by omega)
  rw [Nat.add_sub_cancel, hhalves] at hdigit
  nlinarith

/-- The test of the loop says whether the estimate is too large, while the estimate's remainder is a half word. -/
theorem estimate_test_iff (hu : u.toNat < v.toNat) (hn : nxt.toNat < 2 ^ 64) {q rhat : Word}
    (hq : u.toNat = q.toNat * (highHalf v).toNat + rhat.toNat) (hr : rhat.toNat < 2 ^ 64) :
    base64 ≤ q ∨ shiftIn rhat nxt < q * lowHalf v ↔ exactDigit v u nxt < q.toNat := by
  have hdigit := exactDigit_lt hu hn
  rcases Nat.lt_or_ge q.toNat (2 ^ 64) with hlt | hge
  · have hbase : ¬base64 ≤ q := by
      rw [BitVec.le_def]
      simpa [base64] using hlt
    rw [or_iff_right hbase, BitVec.lt_def, toNat_shiftIn hr hn, toNat_mul_halves hlt (lowHalf_lt v),
      Nat.div_lt_iff_lt_mul (by omega)]
    have hsplit : q.toNat * v.toNat =
        q.toNat * (highHalf v).toNat * 2 ^ 64 + q.toNat * (lowHalf v).toNat := by
      rw [toNat_eq_halves v]
      ring
    omega
  · have hbase : base64 ≤ q := by
      rw [BitVec.le_def]
      simpa [base64] using hge
    exact iff_of_true (.inl hbase) (by omega)

/-- A correction that leaves no half word as remainder is the last one: the estimate below is not too large. -/
theorem digit_ge_of_remainder_ge (hv : 0 < v.toNat) {q r : Nat} (hq : u.toNat = q * (highHalf v).toNat + r)
    (hr : 2 ^ 64 ≤ r) (hle : q ≤ 2 ^ 64) : q ≤ exactDigit v u nxt := by
  have hlow : q * (lowHalf v).toNat ≤ 2 ^ 64 * 2 ^ 64 := Nat.mul_le_mul hle (lowHalf_lt v).le
  rw [Nat.le_div_iff_mul_le hv, toNat_eq_halves v, hq]
  nlinarith

theorem toNat_sub_one {q : Word} (h : 0 < q.toNat) : (q - 1#128).toNat + 1 = q.toNat := by
  have hle : 1#128 ≤ q := h
  rw [BitVec.toNat_sub_of_le hle]
  exact Nat.sub_add_cancel h

/-- The loop ends at the digit when its bound is no smaller than the excess of the estimate. -/
theorem toNat_correctDigit (hu : u.toNat < v.toNat) (hn : nxt.toNat < 2 ^ 64) (k : Nat) {q rhat : Word}
    (hq : u.toNat = q.toNat * (highHalf v).toNat + rhat.toNat) (hr : rhat.toNat < 2 ^ 64)
    (hle : q.toNat ≤ 2 ^ 64 + 1) (hlow : exactDigit v u nxt ≤ q.toNat)
    (hhigh : q.toNat ≤ exactDigit v u nxt + k) :
    (correctDigit (highHalf v) (lowHalf v) nxt k q rhat).toNat =
      exactDigit v u nxt := by
  induction k generalizing q rhat with
  | zero => exact Nat.le_antisymm hhigh hlow
  | succ k ih =>
    have htest := estimate_test_iff hu hn hq hr
    rw [correctDigit]
    by_cases hbig : exactDigit v u nxt < q.toNat
    · have hpred : (q - 1#128).toNat + 1 = q.toNat := toNat_sub_one (by omega)
      have hsum : (rhat + highHalf v).toNat = rhat.toNat + (highHalf v).toNat := by
        have := highHalf_lt v
        rw [BitVec.toNat_add, Nat.mod_eq_of_lt (by omega)]
      have hstep : u.toNat = (q - 1#128).toNat * (highHalf v).toNat + (rhat + highHalf v).toNat := by
        rw [hq, hsum, ← hpred]
        ring
      rw [if_pos (htest.mpr hbig)]
      split_ifs with hmore
      · exact ih hstep hmore (by omega) (by omega) (by omega)
      · have hge : 2 ^ 64 ≤ (rhat + highHalf v).toNat := Nat.not_lt.mp hmore
        exact Nat.le_antisymm (digit_ge_of_remainder_ge (by omega) hstep hge (by omega)) (by omega)
    · rw [if_neg (mt htest.mp hbig)]
      omega

/-- R125: two corrections suffice from the first estimate. -/
theorem toNat_correctDigit_estimate (hv : 2 ^ 127 ≤ v.toNat) (hu : u.toNat < v.toNat) (hn : nxt.toNat < 2 ^ 64)
    {k : Nat} (hk : 2 ≤ k) :
    (correctDigit (highHalf v) (lowHalf v) nxt k (u / highHalf v) (u % highHalf v)).toNat = exactDigit v u nxt := by
  have hpos : 0 < (highHalf v).toNat := by
    rw [toNat_highHalf]
    omega
  have hrem : (u % highHalf v).toNat < (highHalf v).toNat := Nat.mod_lt _ hpos
  have hquot : u.toNat = (u / highHalf v).toNat * (highHalf v).toNat + (u % highHalf v).toNat :=
    (Nat.div_add_mod' _ _).symm
  have hlow : exactDigit v u nxt ≤ (u / highHalf v).toNat := exactDigit_le_estimate hpos hn
  have hhigh : (u / highHalf v).toNat ≤ exactDigit v u nxt + 2 := estimate_le hv hu
  have hdigit := exactDigit_lt hu hn
  exact toNat_correctDigit hu hn k hquot (hrem.trans (highHalf_lt v)) (by omega) hlow (by omega)

end Digit

/-- Settles O33: the loop ends at the digit, for the estimate is at most two above it. -/
theorem quotientDigitIsExactAfterTwoCorrections : Obligations.QuotientDigitIsExactAfterTwoCorrections :=
  fun _ _ _ _ hv hu hn hk => toNat_correctDigit_estimate hv hu hn hk

/-- One digit of tier 2: the quotient digit is a half word and the remainder, kept in 128 bits, is exact (R125). -/
theorem quotientDigit_remainder {v u nxt : Word} (hv : 2 ^ 127 ≤ v.toNat) (hu : u.toNat < v.toNat)
    (hn : nxt.toNat < 2 ^ 64) :
    (quotientDigit v u nxt).toNat < 2 ^ 64 ∧
      (digitRemainder v u nxt (quotientDigit v u nxt)).toNat < v.toNat ∧
      u.toNat * 2 ^ 64 + nxt.toNat = (quotientDigit v u nxt).toNat * v.toNat +
        (digitRemainder v u nxt (quotientDigit v u nxt)).toNat := by
  have hdigit : (quotientDigit v u nxt).toNat = exactDigit v u nxt :=
    toNat_correctDigit_estimate hv hu hn (by decide)
  have hdiv := Nat.div_add_mod' (u.toNat * 2 ^ 64 + nxt.toNat) v.toNat
  have hmod := Nat.mod_lt (u.toNat * 2 ^ 64 + nxt.toNat) (show 0 < v.toNat by omega)
  have hrem : (digitRemainder v u nxt (quotientDigit v u nxt)).toNat =
      (u.toNat * 2 ^ 64 + nxt.toNat) % v.toNat := by
    simp only [digitRemainder, shiftIn, BitVec.toNat_sub, BitVec.toNat_add, BitVec.toNat_mul, BitVec.toNat_shiftLeft,
      Nat.shiftLeft_eq, hdigit, exactDigit]
    have := v.isLt
    omega
  rw [hrem, hdigit]
  exact ⟨exactDigit_lt hu hn, hmod, hdiv.symm⟩

/-! ### Tier 2 on the normalized operands (R125) -/

/-- The divisor is normalized by the shift: its top bit is set and none is lost. -/
theorem clz128_normalizes {d : Word} (hd : d ≠ 0#128) :
    2 ^ 127 ≤ d.toNat * 2 ^ clz128 d ∧ d.toNat * 2 ^ clz128 d < 2 ^ 128 ∧ clz128 d ≤ 127 := by
  have hne : d.toNat ≠ 0 := fun h0 => hd (BitVec.eq_of_toNat_eq h0)
  have hlow : 2 ^ d.toNat.log2 ≤ d.toNat := Nat.log2_self_le hne
  have hhigh : d.toNat < 2 ^ (d.toNat.log2 + 1) := Nat.lt_log2_self
  have hlog : d.toNat.log2 ≤ 127 := by
    have := (Nat.log2_lt hne).mpr d.isLt
    omega
  refine ⟨?_, ?_, Nat.sub_le _ _⟩
  · calc 2 ^ 127 = 2 ^ d.toNat.log2 * 2 ^ clz128 d := by rw [← pow_add, clz128, Nat.add_sub_cancel' hlog]
      _ ≤ _ := Nat.mul_le_mul_right _ hlow
  · calc _ < 2 ^ (d.toNat.log2 + 1) * 2 ^ clz128 d := Nat.mul_lt_mul_of_pos_right hhigh (by positivity)
      _ = 2 ^ 128 := by rw [← pow_add, clz128]; congr 1; omega

/-- The high word of the shifted dividend: it takes the bits that leave the low word. -/
theorem toNat_normalizedHigh {hi lo : Word} {s : Nat} (hs : s ≤ 127) (hlt : hi.toNat * 2 ^ s < 2 ^ 128) :
    (normalizedHigh hi lo s).toNat = hi.toNat * 2 ^ s + lo.toNat * 2 ^ s / 2 ^ 128 := by
  have hsplit : 2 ^ 128 = 2 ^ (128 - s) * 2 ^ s := by rw [← pow_add, Nat.sub_add_cancel (by omega)]
  have hcarry : lo.toNat * 2 ^ s / 2 ^ 128 = lo.toNat / 2 ^ (128 - s) := by
    rw [hsplit, Nat.mul_div_mul_right _ _ (by positivity)]
  have hcarryLt : lo.toNat / 2 ^ (128 - s) < 2 ^ s := by
    rw [Nat.div_lt_iff_lt_mul (by positivity), mul_comm, ← hsplit]
    exact lo.isLt
  rw [hcarry, normalizedHigh]
  split_ifs with h0
  · subst h0
    simpa using lo.isLt
  · rw [BitVec.toNat_or, BitVec.toNat_shiftLeft, BitVec.toNat_ushiftRight, Nat.shiftLeft_eq, Nat.mod_eq_of_lt hlt,
      Nat.shiftRight_eq_div_pow, ← Nat.shiftLeft_eq, ← Nat.shiftLeft_add_eq_or_of_lt hcarryLt]

/-- The dividend is shifted as a whole. -/
theorem normalized_dividend {hi lo : Word} {s : Nat} (hs : s ≤ 127) (hlt : hi.toNat * 2 ^ s < 2 ^ 128) :
    (normalizedHigh hi lo s).toNat * 2 ^ 128 + (lo <<< s).toNat = wideValue hi lo * 2 ^ s := by
  rw [toNat_normalizedHigh hs hlt, BitVec.toNat_shiftLeft, Nat.shiftLeft_eq, wideValue, add_mul, add_mul, add_assoc,
    Nat.div_add_mod']
  ring

/-- The high word of the shifted dividend stays below the shifted divisor. -/
theorem toNat_normalizedHigh_lt {hi lo d : Word} {s : Nat} (hs : s ≤ 127) (hlt : hi.toNat < d.toNat)
    (hnorm : d.toNat * 2 ^ s < 2 ^ 128) : (normalizedHigh hi lo s).toNat < d.toNat * 2 ^ s := by
  have hpow : 0 < 2 ^ s := by positivity
  have hhi : (hi.toNat + 1) * 2 ^ s ≤ d.toNat * 2 ^ s := Nat.mul_le_mul_right _ hlt
  have hcarry : lo.toNat * 2 ^ s / 2 ^ 128 < 2 ^ s := by
    rw [Nat.div_lt_iff_lt_mul (by norm_num), mul_comm]
    exact Nat.mul_lt_mul_of_pos_left lo.isLt hpow
  rw [add_mul, one_mul] at hhi
  rw [toNat_normalizedHigh hs (by omega)]
  omega

/-- Tier 2 has the quotient equation of the exact unit, and a remainder below the divisor (R125). -/
theorem divTier2_spec {hi lo d : Word} (hd : d ≠ 0#128) (hlt : hi.toNat < d.toNat) :
    wideValue hi lo = (divTier2 hi lo d).qlo.toNat * d.toNat + (divTier2 hi lo d).rem.toNat ∧
      (divTier2 hi lo d).rem.toNat < d.toNat := by
  obtain ⟨hnorm, hnormLt, hs⟩ := clz128_normalizes hd
  rw [divTier2]
  generalize clz128 d = s at *
  have hv : (d <<< s).toNat = d.toNat * 2 ^ s := by
    rw [BitVec.toNat_shiftLeft, Nat.shiftLeft_eq, Nat.mod_eq_of_lt hnormLt]
  have hpow : 0 < 2 ^ s := by positivity
  have hhi : hi.toNat * 2 ^ s < 2 ^ 128 := (Nat.mul_le_mul_right _ hlt.le).trans_lt hnormLt
  have hdividend := normalized_dividend (lo := lo) hs hhi
  have hun32 := toNat_normalizedHigh_lt (lo := lo) hs hlt hnormLt
  rw [← hv] at hnorm hun32
  obtain ⟨hq1, hr1, h1⟩ := quotientDigit_remainder hnorm hun32 (highHalf_lt (lo <<< s))
  obtain ⟨hq0, hr0, h0⟩ := quotientDigit_remainder hnorm hr1 (lowHalf_lt (lo <<< s))
  simp only [toNat_joinHalves hq1 hq0, BitVec.toNat_ushiftRight, Nat.shiftRight_eq_div_pow]
  rw [toNat_eq_halves (lo <<< s)] at hdividend
  rw [hv] at h1 h0 hr0
  generalize quotientDigit (d <<< s) (normalizedHigh hi lo s) (highHalf (lo <<< s)) = q1 at *
  generalize digitRemainder (d <<< s) (normalizedHigh hi lo s) (highHalf (lo <<< s)) q1 = un21 at *
  generalize quotientDigit (d <<< s) un21 (lowHalf (lo <<< s)) = q0 at *
  generalize digitRemainder (d <<< s) un21 (lowHalf (lo <<< s)) q0 = rn at *
  have hscaled : wideValue hi lo * 2 ^ s = rn.toNat + (q1.toNat * 2 ^ 64 + q0.toNat) * d.toNat * 2 ^ s := by
    linear_combination -hdividend + 2 ^ 64 * h1 + h0
  constructor
  · rw [← Nat.mul_div_cancel (wideValue hi lo) hpow, hscaled, Nat.add_mul_div_right _ _ hpow, add_comm]
  · rwa [Nat.div_lt_iff_lt_mul hpow]

/-! ### The three tiers -/

theorem divTier2_eq {hi lo d : Word} (hd : d ≠ 0#128) (hlt : hi.toNat < d.toNat) :
    divTier2 hi lo d = wideDivRem hi lo d := by
  obtain ⟨hq, hr⟩ := divTier2_spec (lo := lo) hd hlt
  refine eq_wideDivRem ?_ hr
  rw [hq, wideValue]
  simp [divTier2]

/-- Tier 3 divides the high word first, and leaves the rest to tier 2 (R126). -/
theorem divTier3_eq {hi lo d : Word} (hd : d ≠ 0#128) : divTier3 hi lo d = wideDivRem hi lo d := by
  have hpos : 0 < d.toNat := Nat.pos_of_ne_zero fun h0 => hd (BitVec.eq_of_toNat_eq h0)
  have hmod : (hi % d).toNat < d.toNat := Nat.mod_lt _ hpos
  obtain ⟨hq, hr⟩ := divTier2_spec (lo := lo) hd hmod
  have hhi : hi.toNat = (hi / d).toNat * d.toNat + (hi % d).toNat := (Nat.div_add_mod' _ _).symm
  refine eq_wideDivRem ?_ hr
  simp only [divTier3, wideValue] at hq ⊢
  linear_combination 2 ^ 128 * hhi + hq

/-- Settles O34: each tier of the dispatch is exact on its part of the divisors and dividends. -/
theorem tieredDividerRefinesTheQuotient : Obligations.TieredDividerRefinesTheQuotient := by
  intro hi lo d hd
  unfold tieredDivRem
  split_ifs with hsmall hless
  · exact dividerTierOneIsExact hi lo d hd hsmall
  · exact divTier2_eq hd hless
  · exact divTier3_eq hd

end Sys2Proof.Machine
end

section
/-! PROOFS. The common core of the wide composites (41_wide_arithmetic.md R130), the floor converter
(42_floor_div_mod.md R150) and the rounding increment (43_rounding_engine.md R161, R162; 95_test_vectors.md
section 2.4). -/

namespace Sys2Proof.Machine

open Sys2Proof.Reference

/-! ### `WIDE_FLOOR` (R130) -/

theorem fits_floorRemainder (n : Int) {y : Word} (hy : y.toInt ≠ 0) : Fits (floorRemainder n y.toInt) :=
  (inI128_iff_fits _).mp (floorRemainder_inI128 n hy)

/-- Settles O35: the two sides of the test on the magnitude quotient. -/
theorem wideFloorIsFloorDivisionOrAbsent : Obligations.WideFloorIsFloorDivisionOrAbsent := by
  intro hi lo negN y hy _ n
  have hfloor := wideFloor_eq hi lo negN hy
  exact ⟨fun hbig => hfloor.trans (if_pos hbig), fun hbig =>
    ⟨hfloor.trans (if_neg hbig), fits_floorQuotient hy hbig, fits_floorRemainder n hy⟩⟩

/-! ### The floor converter (R150) -/

/-- A remainder other than zero needs a divisor of at least 2, so the quotient of a dividend in range is not -2^127. -/
theorem fits_sub_one_of_remainder {x y qt rt : Int} (hx : Fits x) (h : x = qt * y + rt) (hlt : rt.natAbs < y.natAbs)
    (hr : rt ≠ 0) (hq : Fits qt) : Fits (qt - 1) := by
  have hmin : qt ≠ -2 ^ 127 := by
    rintro rfl
    omega
  omega

/-- Settles O38: the pair as it is when its remainder is on the divisor's side of zero, and moved by one divisor when it
is on the other. -/
theorem floorConverterMeetsItsPostcondition : Obligations.FloorConverterMeetsItsPostcondition := by
  intro x y qt rt hx hy hqt hy0 h hlt _
  unfold floorConvert
  split_ifs with hfix <;> dsimp only
  · obtain ⟨hr, hne⟩ := hfix
    have hopposite : rt < 0 ∧ 0 < y ∨ y < 0 ∧ 0 < rt := by
      rcases lt_or_gt_of_ne hr with hneg | hpos <;> rcases lt_or_gt_of_ne hy0 with hyneg | hypos
      · simp [Int.sign_eq_neg_one_of_neg, hneg, hyneg] at hne
      · exact .inl ⟨hneg, hypos⟩
      · exact .inr ⟨hyneg, hpos⟩
      · simp [Int.sign_eq_one_of_pos, hpos, hypos] at hne
    refine ⟨by rw [h]; ring, by omega, fun _ => ?_,
      fits_sub_one_of_remainder hx h hlt hr hqt, by omega⟩
    rcases hopposite with ⟨hneg, hypos⟩ | ⟨hyneg, hpos⟩
    · rw [Int.sign_eq_one_of_pos hypos, Int.sign_eq_one_of_pos (by omega)]
    · rw [Int.sign_eq_neg_one_of_neg hyneg, Int.sign_eq_neg_one_of_neg (by omega)]
  · exact ⟨h, hlt, fun hr => by tauto, hqt, by omega⟩

/-! ### The increment, table by table (R161, R162) -/

theorem nearest_of_lt {r y : Int} (atTie : Int) (h : 2 * r.natAbs < y.natAbs) : nearest r y atTie = 0 := if_pos h

theorem nearest_of_gt {r y : Int} (atTie : Int) (h : y.natAbs < 2 * r.natAbs) : nearest r y atTie = 1 := by
  rw [nearest, if_neg (by omega), if_pos h]

theorem nearest_of_eq {r y : Int} (atTie : Int) (h : 2 * r.natAbs = y.natAbs) : nearest r y atTie = atTie := by
  rw [nearest, if_neg (by omega), if_neg (by omega)]

theorem roundIncrement_halfUp {q r y : Int} (hr : r ≠ 0) :
    roundIncrement .halfUp q r y = nearest r y (if q < 0 then 0 else 1) := if_neg hr

theorem roundIncrement_halfDown {q r y : Int} (hr : r ≠ 0) :
    roundIncrement .halfDown q r y = nearest r y (if q < 0 then 1 else 0) := if_neg hr

theorem roundIncrement_halfEven {q r y : Int} (hr : r ≠ 0) :
    roundIncrement .halfEven q r y = nearest r y (lowBit q) := if_neg hr

theorem roundIncrement_halfCeiling {q r y : Int} (hr : r ≠ 0) :
    roundIncrement .halfCeiling q r y = nearest r y 1 := if_neg hr

theorem roundIncrement_halfFloor {q r y : Int} (hr : r ≠ 0) :
    roundIncrement .halfFloor q r y = nearest r y 0 := if_neg hr

theorem roundIncrement_floor {q r y : Int} (hr : r ≠ 0) : roundIncrement .floor q r y = 0 := if_neg hr

theorem roundIncrement_ceiling {q r y : Int} (hr : r ≠ 0) : roundIncrement .ceiling q r y = 1 := if_neg hr

theorem roundIncrement_up {q r y : Int} (hr : r ≠ 0) : roundIncrement .up q r y = if q < 0 then 0 else 1 := if_neg hr

theorem roundIncrement_down {q r y : Int} (hr : r ≠ 0) : roundIncrement .down q r y = if q < 0 then 1 else 0 :=
  if_neg hr

/-- The five modes that round to the nearest differ at a tie only. -/
theorem exists_nearest_of_half {m : RoundingMode} (q y : Int) {r : Int} (hr : r ≠ 0)
    (hm : m ∈ [RoundingMode.halfUp, .halfDown, .halfEven, .halfCeiling, .halfFloor]) :
    ∃ atTie, roundIncrement m q r y = nearest r y atTie := by
  simp only [List.mem_cons, List.not_mem_nil, or_false] at hm
  rcases hm with rfl | rfl | rfl | rfl | rfl <;> exact ⟨_, if_neg hr⟩

/-- Bit 0 of the pattern of `q` says whether `q` is odd. -/
theorem lowBit_eq_getLsbD (q : Int) : lowBit q = if (BitVec.ofInt 128 q).getLsbD 0 then 1 else 0 := by
  have hbit : (BitVec.ofInt 128 q).getLsbD 0 = decide (q % 2 = 1) := by
    rw [← BitVec.testBit_toNat, BitVec.toNat_ofInt, Nat.testBit_zero, decide_eq_decide]
    omega
  rw [hbit, lowBit]
  split_ifs with h <;> simp at h <;> omega

/-- Settles O41: the directed modes by their equations, the half modes by the three cases of `nearest`. -/
theorem roundIncrementFollowsTheTables : Obligations.RoundIncrementFollowsTheTables := by
  intro q r y
  refine ⟨fun hr m => hr ▸ roundIncrement_zero_remainder m q y, fun hr hq => ?_, fun hr hq => ?_,
    fun hr m hm => ?_, fun hr htie => ?_⟩
  · exact ⟨roundIncrement_floor hr, roundIncrement_ceiling hr, (roundIncrement_up hr).trans (if_neg hq.not_gt),
      (roundIncrement_down hr).trans (if_neg hq.not_gt)⟩
  · exact ⟨roundIncrement_floor hr, roundIncrement_ceiling hr, (roundIncrement_up hr).trans (if_pos hq),
      (roundIncrement_down hr).trans (if_pos hq)⟩
  · obtain ⟨atTie, hinc⟩ := exists_nearest_of_half q y hr hm
    exact ⟨fun h => hinc.trans (nearest_of_lt atTie h), fun h => hinc.trans (nearest_of_gt atTie h)⟩
  · rw [roundIncrement_halfUp hr, roundIncrement_halfDown hr, roundIncrement_halfEven hr,
      roundIncrement_halfCeiling hr, roundIncrement_halfFloor hr, ← lowBit_eq_getLsbD]
    exact ⟨nearest_of_eq _ htie, nearest_of_eq _ htie, nearest_of_eq _ htie, nearest_of_eq _ htie,
      nearest_of_eq _ htie⟩

/-! ### The rounded value on exact rationals (95_test_vectors.md section 2.4) -/

section Rational

variable (n : Int) {y : Int} (hy : y ≠ 0)
include hy

/-- The exact quotient is the floor quotient and a fraction, whose terms have one sign. -/
theorem div_eq_floorQuotient_add :
    (n : ℚ) / y = floorQuotient n y + ((floorRemainder n y).natAbs : ℚ) / (y.natAbs : ℚ) := by
  have hyq : (y : ℚ) ≠ 0 := Int.cast_ne_zero.mpr hy
  have hn : (n : ℚ) = floorQuotient n y * y + floorRemainder n y := by
    rw [floorRemainder]
    push_cast
    ring
  have hsame : 0 ≤ (floorRemainder n y : ℚ) / y := by
    rcases floorRemainder_range n hy with ⟨hpos, h0, -⟩ | ⟨hneg, -, h0⟩
    · exact div_nonneg (Int.cast_nonneg h0) (Int.cast_nonneg hpos.le)
    · exact div_nonneg_of_nonpos (Int.cast_nonpos.mpr h0) (Int.cast_nonpos.mpr hneg.le)
  rw [Nat.cast_natAbs, Nat.cast_natAbs, Int.cast_abs, Int.cast_abs, ← abs_div, abs_of_nonneg hsame]
  nth_rw 1 [hn]
  rw [add_div, mul_div_cancel_right₀ _ hyq]

theorem natAbs_divisor_pos : (0 : ℚ) < y.natAbs := Nat.cast_pos.mpr (Int.natAbs_pos.mpr hy)

theorem floor_div_eq : ⌊(n : ℚ) / y⌋ = floorQuotient n y := by
  have hpos := natAbs_divisor_pos hy
  have hlt : ((floorRemainder n y).natAbs : ℚ) / y.natAbs < 1 :=
    (div_lt_one hpos).mpr (Nat.cast_lt.mpr (natAbs_floorRemainder_lt n hy))
  have hnonneg : 0 ≤ ((floorRemainder n y).natAbs : ℚ) / y.natAbs := div_nonneg (Nat.cast_nonneg _) hpos.le
  rw [div_eq_floorQuotient_add n hy, Int.floor_eq_iff]
  constructor <;> linarith

theorem ceil_div_eq : ⌈(n : ℚ) / y⌉ = if floorRemainder n y = 0 then floorQuotient n y else floorQuotient n y + 1 := by
  have hpos := natAbs_divisor_pos hy
  have hfloor := (Int.floor_eq_iff.mp (floor_div_eq n hy)).2
  rw [Int.ceil_eq_iff]
  split_ifs with hr
  · rw [div_eq_floorQuotient_add n hy, hr]
    simp
  · have hfrac : 0 < ((floorRemainder n y).natAbs : ℚ) / y.natAbs :=
      div_pos (Nat.cast_pos.mpr (Int.natAbs_pos.mpr hr)) hpos
    push_cast
    constructor
    · rw [div_eq_floorQuotient_add n hy]
      linarith
    · exact hfloor.le

theorem zero_le_div_iff : 0 ≤ (n : ℚ) / y ↔ ¬floorQuotient n y < 0 := by
  rw [← Int.floor_nonneg, floor_div_eq n hy, not_lt]

/-- Rounding to the nearest compares twice the remainder with the divisor. -/
theorem nearestOr_div_eq (tie : Int) :
    nearestOr ((n : ℚ) / y) tie =
      if 2 * (floorRemainder n y).natAbs < y.natAbs then floorQuotient n y
      else if y.natAbs < 2 * (floorRemainder n y).natAbs then floorQuotient n y + 1 else tie := by
  have hpos := natAbs_divisor_pos hy
  have hfrac : (n : ℚ) / y - floorQuotient n y = ((floorRemainder n y).natAbs : ℚ) / y.natAbs := by
    rw [div_eq_floorQuotient_add n hy, add_sub_cancel_left]
  have hbelow : ((floorRemainder n y).natAbs : ℚ) / y.natAbs < 1 / 2 ↔
      2 * (floorRemainder n y).natAbs < y.natAbs := by
    rw [div_lt_div_iff₀ hpos two_pos, one_mul, mul_comm]
    exact_mod_cast Iff.rfl
  have habove : 1 / 2 < ((floorRemainder n y).natAbs : ℚ) / y.natAbs ↔
      y.natAbs < 2 * (floorRemainder n y).natAbs := by
    rw [div_lt_div_iff₀ two_pos hpos, one_mul, mul_comm _ (2 : ℚ)]
    exact_mod_cast Iff.rfl
  simp only [nearestOr, floor_div_eq n hy, hfrac, hbelow, habove]

/-- The engine's choice between `q` and `q + 1` is that of rounding to the nearest, when the ties agree. -/
theorem add_nearest_eq (atTie : Int) :
    floorQuotient n y + nearest (floorRemainder n y) y atTie = nearestOr ((n : ℚ) / y) (floorQuotient n y + atTie) := by
  rw [nearestOr_div_eq n hy, nearest]
  split_ifs <;> ring

/-- An exact quotient is its own rounding in every mode. -/
theorem roundRational_of_exact (m : RoundingMode) (hr : floorRemainder n y = 0) :
    roundRational m ((n : ℚ) / y) = floorQuotient n y := by
  have hceil := (ceil_div_eq n hy).trans (if_pos hr)
  have hnearest (tie : Int) : nearestOr ((n : ℚ) / y) tie = floorQuotient n y := by
    rw [nearestOr_div_eq n hy, if_pos]
    rw [hr]
    omega
  cases m <;> simp only [roundRational, floor_div_eq n hy, hceil, hnearest, ite_self]

/-- A quotient that is not exact, mode by mode (R161, R162). -/
theorem rounded_of_inexact (m : RoundingMode) (hr : floorRemainder n y ≠ 0) :
    rounded m ⟨floorQuotient n y, floorRemainder n y⟩ y = roundRational m ((n : ℚ) / y) := by
  have hceil := (ceil_div_eq n hy).trans (if_neg hr)
  have hsign := zero_le_div_iff n hy
  simp only [rounded, roundRational, floor_div_eq n hy, hceil, hsign, ite_not]
  cases m with
  | floor => rw [roundIncrement_floor hr, add_zero]
  | ceiling => rw [roundIncrement_ceiling hr]
  | up => rw [roundIncrement_up hr, add_ite, add_zero]
  | down => rw [roundIncrement_down hr, add_ite, add_zero]
  | halfUp => rw [roundIncrement_halfUp hr, add_nearest_eq n hy, add_ite, add_zero]
  | halfDown => rw [roundIncrement_halfDown hr, add_nearest_eq n hy, add_ite, add_zero]
  | halfEven =>
    rw [roundIncrement_halfEven hr, add_nearest_eq n hy, lowBit]
    congr 1
    split_ifs <;> omega
  | halfCeiling => rw [roundIncrement_halfCeiling hr, add_nearest_eq n hy]
  | halfFloor => rw [roundIncrement_halfFloor hr, add_nearest_eq n hy, add_zero]

end Rational

/-- Settles O42: an exact quotient is its own rounding, any other is rounded by the tables. -/
theorem roundedValueIsRationalRounding : Obligations.RoundedValueIsRationalRounding := by
  intro m n y hy
  by_cases hr : floorRemainder n y = 0
  · rw [roundRational_of_exact n hy m hr, rounded, hr, roundIncrement_zero_remainder, add_zero]
  · exact rounded_of_inexact n hy m hr

end Sys2Proof.Machine
end

section
/-! PROOFS. `PARSE` over an unwritten byte (20_memory.md R62), and the parser's bounded registers (44_parser.md R186):
they follow the registers over the integers, and where they lose the value it is a capacity failure either way. -/

namespace Sys2Proof.Machine

open Sys2Proof.Reference

/-- Settles O50: the first byte that holds no value is where the read of the text stops. -/
theorem parseOfAnUnwrittenByteStops : Obligations.ParseOfAnUnwrittenByteStops := by
  intro s i hlen hi hnone hbefore
  refine exec_parse_of_readText_error hlen ((readText_error_iff _ _ _ _).mpr ⟨Nat.zero_le i, ?_, hnone, ?_⟩)
  · rwa [Nat.zero_add]
  · exact fun j _ hj => hbefore j hj

/-! ### The value where the bounded registers lose it (R186) -/

theorem checkCapacity_eq_error {z : Int} {n : Nat} (h : ¬(n ≤ 18 ∧ InI128 z)) :
    checkCapacity z n = .error .scaleExceedsMaximum := if_neg h

/-- A magnitude above 2^127 is no coefficient, whatever the shift (R186 (a)). -/
theorem valueOf_of_magnitudeLimit_lt {m : Nat} (neg : Bool) (k : Int) (h : magnitudeLimit < m) :
    valueOf neg m k = .error .scaleExceedsMaximum := by
  have hgrow : m ≤ if k ≤ 0 then m else m * 10 ^ k.toNat := by
    split_ifs
    · exact le_refl m
    · exact Nat.le_mul_of_pos_right m (by positivity)
  rw [valueOf_eq]
  generalize (if k ≤ 0 then m else m * 10 ^ k.toNat) = z at hgrow
  refine checkCapacity_eq_error fun hcap => ?_
  obtain ⟨hlo, hhi⟩ := hcap.2
  simp only [withSign, i128Min, i128Max, magnitudeLimit] at *
  split_ifs at * <;> omega

/-- A scale above 18 is a capacity failure (R183). -/
theorem valueOf_of_shift_lt {k : Int} (neg : Bool) (m : Nat) (h : k < -18) :
    valueOf neg m k = .error .scaleExceedsMaximum := by
  rw [valueOf, if_pos (by omega)]
  exact checkCapacity_eq_error fun hcap => by omega

/-- Every shift above the largest power of the table gives the same value (R186 (c)). -/
theorem valueOf_congr_of_maxPow_lt {k k' : Int} (neg : Bool) (m : Nat) (h : 38 < k) (h' : 38 < k') :
    valueOf neg m k = valueOf neg m k' := by
  have hlarge {j : Int} (hj : 38 < j) : ¬j ≤ 0 ∧ maxPow < j.toNat := by
    simp only [maxPow]
    omega
  simp only [valueOf, scaledMagnitude, if_neg (hlarge h).1, if_neg (hlarge h').1, if_pos (hlarge h).2,
    if_pos (hlarge h').2]

theorem shiftOf_false (exp frac : Nat) : shiftOf false exp frac = (exp : Int) - frac := rfl

theorem shiftOf_true (exp frac : Nat) : shiftOf true exp frac = -(exp : Int) - frac := rfl

/-- A saturated exponent gives the value of the true one: with at most 65535 fractional digits both shifts are out of
reach, on the same side (R186 (c)). -/
theorem valueOf_min_exponentLimit (neg expNeg : Bool) (m exp : Nat) {frac : Nat} (hf : frac ≤ 65535) :
    valueOf neg m (shiftOf expNeg (min exp exponentLimit) frac) = valueOf neg m (shiftOf expNeg exp frac) := by
  rcases Nat.le_total exp exponentLimit with h | h
  · rw [min_eq_left h]
  · rw [min_eq_right h]
    unfold exponentLimit at *
    cases expNeg with
    | false =>
      rw [shiftOf_false, shiftOf_false]
      exact valueOf_congr_of_maxPow_lt neg m (by omega) (by omega)
    | true =>
      rw [shiftOf_true, shiftOf_true, valueOf_of_shift_lt neg m (by omega), valueOf_of_shift_lt neg m (by omega)]

/-! ### The bounded registers follow the exact ones -/

/-- What the bounded scanner holds after `n` bytes, when the scanner over the integers holds `sc` (R186). -/
structure BoundedScan.Tracks (n : Nat) (b : BoundedScan) (sc : Scan) : Prop where
  at_ : b.at_ = sc.at_
  neg : b.neg = sc.neg
  expNeg : b.expNeg = sc.expNeg
  exp : b.exp.toNat = min sc.exp exponentLimit
  frac : b.frac.toNat = sc.frac
  frac_le : sc.frac ≤ n
  above : b.above = true → magnitudeLimit < sc.mag
  mag : b.above = false → b.mag.toNat = sc.mag ∧ sc.mag ≤ magnitudeLimit

section Tracks

variable {n : Nat} {b : BoundedScan} {sc : Scan}

theorem BoundedScan.tracks_start : BoundedScan.start.Tracks 0 Scan.start where
  at_ := rfl
  neg := rfl
  expNeg := rfl
  exp := rfl
  frac := rfl
  frac_le := le_refl 0
  above := by simp [BoundedScan.start]
  mag := fun _ => ⟨rfl, Nat.zero_le _⟩

namespace BoundedScan.Tracks

/-- The counts may be read as if more bytes had been taken. -/
theorem mono {n' : Nat} (h : b.Tracks n sc) (hle : n ≤ n') : b.Tracks n' sc :=
  { h with frac_le := h.frac_le.trans hle }

theorem goto (h : b.Tracks n sc) (p : ScanPoint) : BoundedScan.Tracks n { b with at_ := p } { sc with at_ := p } :=
  { h with at_ := rfl }

theorem sign (h : b.Tracks n sc) (s : Bool) : BoundedScan.Tracks n { b with neg := s } { sc with neg := s } :=
  { h with neg := rfl }

theorem exponentSign (h : b.Tracks n sc) (s : Bool) :
    BoundedScan.Tracks n { b with expNeg := s } { sc with expNeg := s } :=
  { h with expNeg := rfl }

/-- Once the flag is set it stays, for a further digit makes the magnitude no smaller (R186 (a)). -/
theorem mantissa (h : b.Tracks n sc) (v : Nat) :
    (b.takeMantissa v).Tracks n { sc with mag := sc.mag * 10 + v } := by
  unfold BoundedScan.takeMantissa
  by_cases hbig : b.above ∨ magnitudeLimit < b.mag.toNat * 10 + v
  · rw [if_pos hbig]
    refine { h with above := fun _ => ?_, mag := by simp }
    dsimp only
    cases hb : b.above with
    | true =>
      have := h.above hb
      omega
    | false =>
      rw [← (h.mag hb).1]
      exact hbig.resolve_left (by simp [hb])
  · obtain ⟨hb, hle⟩ := not_or.mp hbig
    have hb : b.above = false := Bool.not_eq_true _ ▸ hb
    have hval := (h.mag hb).1
    rw [if_neg hbig]
    refine { h with above := fun habove => absurd habove (by simp [hb]), mag := fun _ => ?_ }
    rw [hval, not_lt] at hle
    rw [hval, BitVec.toNat_ofNat, Nat.mod_eq_of_lt (hle.trans_lt (by decide))]
    exact ⟨rfl, hle⟩

/-- A fractional digit is counted, while the text is shorter than the counter can hold (R186 (b)). -/
theorem fraction (h : b.Tracks n sc) (hn : n < 65535) (v : Nat) :
    BoundedScan.Tracks (n + 1) { b.takeMantissa v with at_ := .s4, frac := b.frac + 1#16 } (sc.takeFraction v) := by
  have hle := h.frac_le
  refine { h.mantissa v with at_ := rfl, frac := ?_, frac_le := Nat.succ_le_succ hle }
  rw [BitVec.toNat_add, h.frac, BitVec.toNat_ofNat, Scan.takeFraction]
  dsimp only
  omega

/-- The exponent saturates as the minimum of the true one and the limit (R186 (c)). -/
theorem exponent (h : b.Tracks n sc) (v : Nat) :
    (b.takeExponent v).Tracks n { sc with exp := sc.exp * 10 + v } := by
  refine { h with exp := ?_ }
  simp only [BoundedScan.takeExponent, BitVec.toNat_ofNat, h.exp, exponentLimit]
  omega

/-- Both scanners make the same move of the table of R182, or none. -/
theorem move (h : b.Tracks n sc) (hn : n < 65535) (c : CharClass) :
    Option.Rel (BoundedScan.Tracks (n + 1)) (b.move c) (sc.move c) := by
  have hat := h.at_
  unfold BoundedScan.move Scan.move
  rw [hat]
  have h' := h.mono n.le_succ
  cases sc.at_ <;> cases c
  case s0.sign s => exact .some ((h'.sign s).goto .s1)
  case s0.digit v => exact .some ((h'.mantissa v).goto .s2)
  case s0.point => exact .some (h'.goto .s3)
  case s1.digit v => exact .some ((h'.mantissa v).goto .s2)
  case s1.point => exact .some (h'.goto .s3)
  case s2.digit v => exact .some ((h'.mantissa v).goto .s2)
  case s2.point => exact .some (h'.goto .s4)
  case s2.marker => exact .some (h'.goto .s5)
  case s3.digit v => exact .some (h.fraction hn v)
  case s4.digit v => exact .some (h.fraction hn v)
  case s4.marker => exact .some (h'.goto .s5)
  case s5.sign s => exact .some ((h'.exponentSign s).goto .s6)
  case s5.digit v => exact .some ((h'.exponent v).goto .s7)
  case s6.digit v => exact .some ((h'.exponent v).goto .s7)
  case s7.digit v => exact .some ((h'.exponent v).goto .s7)
  all_goals exact .none

/-- Both scanners take the same texts, as far as a `TLEN` can name them. -/
theorem run (t : List Byte) {n : Nat} {b : BoundedScan} {sc : Scan} (h : b.Tracks n sc) (hn : n + t.length ≤ 65535) :
    Option.Rel (BoundedScan.Tracks (n + t.length)) (b.run t) (sc.run t) := by
  induction t generalizing n b sc with
  | nil => exact .some h
  | cons x t ih =>
    rw [List.length_cons] at hn ⊢
    have hmove := h.move (by omega) (classOf x)
    rw [BoundedScan.run, Scan.run]
    generalize b.move (classOf x) = ob at hmove
    generalize sc.move (classOf x) = osc at hmove
    cases hmove with
    | none => exact .none
    | some h' =>
      have hrun := ih h' (by omega)
      rwa [Nat.add_right_comm, Nat.add_assoc] at hrun

/-- The two classify an accepted text alike. -/
theorem finish (h : b.Tracks n sc) (hn : n ≤ 65535) : b.finish = sc.finish := by
  have hvalue : b.value = valueOf sc.neg sc.mag (shiftOf sc.expNeg sc.exp sc.frac) := by
    unfold BoundedScan.value
    cases hb : b.above with
    | true => rw [if_pos rfl, valueOf_of_magnitudeLimit_lt _ _ (h.above hb)]
    | false =>
      rw [if_neg Bool.false_ne_true, (h.mag hb).1, h.neg, h.expNeg, h.exp, h.frac]
      exact valueOf_min_exponentLimit _ _ _ _ (h.frac_le.trans hn)
  have hat := h.at_
  cases hp : sc.at_ <;> rw [hp] at hat <;> simp only [BoundedScan.finish, Scan.finish, hat, hp, hvalue]

end BoundedScan.Tracks

end Tracks

/-- Settles O47: the bounded registers follow the exact ones over the whole text, and give the same value at its end. -/
theorem boundedRegistersSuffice : Obligations.BoundedRegistersSuffice := by
  intro t ht
  have hrun := BoundedScan.tracks_start.run t (by rwa [Nat.zero_add])
  unfold boundedParseText parseText
  generalize BoundedScan.start.run t = ob at hrun
  generalize Scan.start.run t = osc at hrun
  cases hrun with
  | none => rfl
  | some h => exact h.finish (by rwa [Nat.zero_add])

end Sys2Proof.Machine
end

section
/-! PROOF. Formatting then parsing gives the pair back (44_parser.md R187): the formatter spells a numeral of the
grammar whose digits are the coefficient's. -/

namespace Sys2Proof.Machine

open Sys2Proof.Reference

/-! ### Decimal digits -/

@[simp] theorem length_decimalDigits (n v : Nat) : (decimalDigits n v).length = n := by
  induction n generalizing v with
  | zero => rfl
  | succ n ih => simp [decimalDigits, ih]

theorem digitsValue_concat (ds : List Digit) (d : Digit) : digitsValue (ds ++ [d]) = digitsValue ds * 10 + d.val := by
  simp [digitsValue]

/-- The last `n` digits are the number modulo `10^n`. -/
theorem digitsValue_decimalDigits (n v : Nat) : digitsValue (decimalDigits n v) = v % 10 ^ n := by
  induction n generalizing v with
  | zero => simp [decimalDigits, digitsValue, Nat.mod_one]
  | succ n ih =>
    rw [decimalDigits, digitsValue_concat, ih, Nat.pow_succ', Nat.mod_mul]
    ring

theorem digitCount_le (fuel v : Nat) : digitCount fuel v ≤ fuel + 1 := by
  induction fuel generalizing v with
  | zero => exact le_refl 1
  | succ fuel ih =>
    rw [digitCount]
    split_ifs
    · omega
    · exact Nat.succ_le_succ (ih _)

/-- With enough fuel the count is large enough for the number. -/
theorem lt_pow_digitCount {fuel v : Nat} (h : v < 10 ^ (fuel + 1)) : v < 10 ^ digitCount fuel v := by
  induction fuel generalizing v with
  | zero => exact h
  | succ fuel ih =>
    rw [digitCount]
    split_ifs with hlt
    · exact hlt
    · rw [Nat.pow_succ] at h ⊢
      have := ih (Nat.div_lt_of_lt_mul (by rwa [mul_comm]))
      omega

/-! ### The padded digits of a coefficient -/

section Padded

variable {c : Int} (scale : Nat)

theorem scale_lt_length_paddedDigits : scale < (paddedDigits c scale).length := by
  rw [paddedDigits, length_decimalDigits]
  exact Nat.lt_of_succ_le (le_max_right _ _)

/-- 39 digits suffice for an `i128`, and for every scale of at most 18. -/
theorem length_paddedDigits_le (h : scale ≤ 18) : (paddedDigits c scale).length ≤ 39 := by
  rw [paddedDigits, length_decimalDigits]
  exact max_le (digitCount_le 38 _) (by omega)

theorem digitsValue_paddedDigits (h : Fits c) : digitsValue (paddedDigits c scale) = c.natAbs := by
  have hlt : c.natAbs < 10 ^ (38 + 1) := by omega
  rw [paddedDigits, digitsValue_decimalDigits, Nat.mod_eq_of_lt]
  exact (lt_pow_digitCount hlt).trans_le (Nat.pow_le_pow_right (by norm_num) (le_max_left _ _))

end Padded

/-! ### The numeral that is spelled -/

/-- The digits with `scale` of them after the point, as a mantissa. -/
theorem exists_mantissa {ds : List Digit} {scale : Nat} (h : scale < ds.length) :
    ∃ m : Mantissa, m.digits = ds ∧ m.fracDigits.length = scale ∧
      m.spell = if scale = 0 then ds.map digitByte
        else (ds.take (ds.length - scale)).map digitByte ++
          pointByte :: (ds.drop (ds.length - scale)).map digitByte := by
  split_ifs with h0
  · obtain ⟨d, ds', rfl⟩ := List.exists_cons_of_length_pos (Nat.zero_lt_of_lt h)
    exact ⟨.whole d ds', rfl, h0.symm, rfl⟩
  · obtain ⟨d, whole, hwhole⟩ : ∃ d whole, ds.take (ds.length - scale) = d :: whole :=
      List.exists_cons_of_length_pos (by rw [List.length_take]; omega)
    refine ⟨.pointed d whole (ds.drop (ds.length - scale)), ?_, ?_, ?_⟩
    · rw [Mantissa.digits, ← hwhole, List.take_append_drop]
    · rw [Mantissa.fracDigits, List.length_drop]
      omega
    · rw [Mantissa.spell, ← hwhole]

/-- The numeral of a mantissa with the sign of `c`. -/
def signedNumeral (c : Int) (m : Mantissa) : Numeral := ⟨if c < 0 then some true else none, m, none⟩

theorem shift_signedNumeral (c : Int) (m : Mantissa) :
    (signedNumeral c m).shift = -(m.fracDigits.length : Int) := by
  simp [signedNumeral, Numeral.shift, Numeral.exponentValue]

/-- Without an exponent the scale is the number of fractional digits (R183). -/
theorem scale_signedNumeral (c : Int) (m : Mantissa) : (signedNumeral c m).scale = m.fracDigits.length := by
  rw [Numeral.scale, shift_signedNumeral, if_pos (by omega), neg_neg, Int.toNat_natCast]

/-- Without an exponent the coefficient is the number the digits are (R183). -/
theorem coefficient_signedNumeral {c : Int} {m : Mantissa} (h : digitsValue m.digits = c.natAbs) :
    (signedNumeral c m).coefficient = c := by
  have hmag : (signedNumeral c m).mag = c.natAbs := by
    rw [Numeral.mag, shift_signedNumeral, if_pos (by omega)]
    exact h
  rw [Numeral.coefficient, hmag, signedNumeral]
  by_cases hneg : c < 0
  · rw [if_pos hneg, if_pos rfl]
    omega
  · rw [if_neg hneg, if_neg (by simp)]
    omega

/-- The formatter spells a numeral whose coefficient and scale are the pair. -/
theorem exists_numeral_formatDecimal {c : Int} (scale : Nat) (h : Fits c) :
    ∃ n : Numeral, n.spell = formatDecimal c scale ∧ n.coefficient = c ∧ n.scale = scale := by
  obtain ⟨m, hdigits, hfrac, hspell⟩ := exists_mantissa (scale_lt_length_paddedDigits (c := c) scale)
  refine ⟨signedNumeral c m, ?_, coefficient_signedNumeral ?_, (scale_signedNumeral c m).trans hfrac⟩
  · rw [signedNumeral, spell_none, hspell, formatDecimal]
    split_ifs <;> rfl
  · rw [hdigits, digitsValue_paddedDigits scale h]

/-- A sign and a point besides the digits. -/
theorem length_formatDecimal_le (c : Int) (scale : Nat) :
    (formatDecimal c scale).length ≤ (paddedDigits c scale).length + 2 := by
  have := scale_lt_length_paddedDigits (c := c) scale
  unfold formatDecimal
  split_ifs <;> simp <;> omega

/-- Settles O48: the text is the spelling of a numeral with the pair's coefficient and scale, both within capacity. -/
theorem formattedPairParsesBack : Obligations.FormattedPairParsesBack := by
  intro c scale hc hscale
  obtain ⟨n, hspell, hcoefficient, hn⟩ := exists_numeral_formatDecimal scale hc
  have hlen := length_formatDecimal_le c scale
  have hdigits := length_paddedDigits_le (c := c) scale hscale
  refine ⟨?_, by omega⟩
  rw [← hspell, parseText_spell, hcoefficient, hn]
  exact if_pos ⟨hscale, (inI128_iff_fits c).mpr hc⟩

end Sys2Proof.Machine
end

section
/-! PROOFS. Rules of the whole machine (00_scope.md R19; 10_state.md R21, R23, R26; 30_encoding.md R74;
60_exceptions.md R204, R205; 70_reset_and_hazards.md R241): what a command leaves alone, that it has a next state, and
that its outcome is decided by the operands of its row. -/

namespace Sys2Proof.Machine

open Sys2Proof.Reference

/-! ### The frame of a command -/

theorem EndsAs.untouched {s t : State} (h : EndsAs s t) : Untouched s t := by
  obtain ⟨ha, hb, hc, htlen, htxt, hconfig, hscript, hreads⟩ := h.frame
  exact ⟨ha, hb, hc, htlen, fun i => by rw [htxt], hconfig, hscript, hreads⟩

theorem code_range (c : FaultCause) : 1 ≤ c.code.toNat ∧ c.code.toNat ≤ 8 := by
  cases c <;> decide

/-- Settles O52: a command that ends leaves its operands alone, and writes `STATUS[31:8]` only by a fault entry. -/
theorem commandsChangeOnlyResultsAndStatus : Obligations.CommandsChangeOnlyResultsAndStatus := by
  intro i s t h
  have hends := exec_ends h
  refine ⟨hends.untouched, ?_⟩
  rcases hends with ⟨c, rfl⟩ | ⟨r0, r1, rsc, ovf, ovfb, perr, -, rfl⟩
  · exact .inl ⟨_, (code_range c).1, (code_range c).2, faultsWith_raiseFault c s⟩
  · right
    rw [extractLsb'_high_statusWord, extractLsb'_high_statusWord, statusHigh_complete]

/-! ### Every command has a next state -/

/-- Only `PARSE` has an outcome other than a next state. -/
theorem exists_next_of_ne_parse {i : Instr} (h : i ≠ .parse) (s : State) : ∃ t, exec i s = .next t := by
  cases i with
  | tenpow n => simp only [exec, execTenpow]; split_ifs <;> exact ⟨_, rfl⟩
  | mulp10 n => simp only [exec, execMulp10]; split_ifs <;> exact ⟨_, rfl⟩
  | cmulp10 n => simp only [exec, execCmulp10]; split_ifs <;> exact ⟨_, rfl⟩
  | adj s1 s2 => simp only [exec, execAdj]; split_ifs <;> exact ⟨_, rfl⟩
  | cadj s1 s2 => simp only [exec, execCadj]; split_ifs <;> exact ⟨_, rfl⟩
  | sdivf p => simp only [exec, execSdivf]; split_ifs <;> exact ⟨_, rfl⟩
  | dmdf => simp only [exec, execDmdf]; split_ifs <;> exact ⟨_, rfl⟩
  | divmodf => simp only [exec, execDivmodf]; split_ifs <;> exact ⟨_, rfl⟩
  | divr m => simp only [exec, execDivr]; split_ifs <;> exact ⟨_, rfl⟩
  | sdivr p m => simp only [exec, execSdivr]; split_ifs <;> exact ⟨_, rfl⟩
  | mdtpr p m => simp only [exec, execMdtpr]; split_ifs <;> exact ⟨_, rfl⟩
  | parse => exact absurd rfl h

theorem exists_next_parse {s : State} (h : ∀ j, j < s.tlen.toNat → Memory.read s.txt j ≠ none) :
    ∃ t, exec .parse s = .next t := by
  by_cases hlen : s.config.textMax < s.tlen.toNat
  · exact ⟨_, if_pos hlen⟩
  · cases hr : readText s.txt s.tlen.toNat 0 with
    | ok t => exact ⟨_, exec_parse_of_readText_ok (not_lt.mp hlen) hr⟩
    | error k =>
      obtain ⟨-, hk, hnone, -⟩ := (readText_error_iff _ _ _ _).mp hr
      rw [Nat.zero_add] at hk
      exact absurd hnone (h k hk)

/-- Settles O53: `PARSE` by what its text reads as, and every other command always. -/
theorem everyCommandHasANextState : Obligations.EveryCommandHasANextState := by
  intro i s h
  by_cases hi : i = .parse
  · subst hi
    exact exists_next_parse (h rfl)
  · exact exists_next_of_ne_parse hi s

/-! ### The outcome is decided by the operands -/

/-- What a command decides from its operands: the cause of a fault, what a completion writes, or where it stops. -/
inductive Verdict where
  | fault (c : FaultCause)
  | done (r0 r1 : Option Word) (rsc : Option Byte) (ovf ovfb : Bool) (perr : Option ParseError)
  | stop (f : Fault)

/-- The outcome of a verdict in a state. -/
def Verdict.outcome : Verdict → State → StepOutcome
  | .fault c, s => .next (raiseFault c s)
  | .done r0 r1 rsc ovf ovfb perr, s => .next (complete r0 r1 rsc ovf ovfb perr s)
  | .stop f, _ => .fault f

/-- Taking the same verdict again changes nothing. -/
theorem Verdict.outcome_again {v : Verdict} {s t : State} (h : v.outcome s = .next t) : v.outcome t = .next t := by
  cases v <;> cases h <;> rfl

theorem Verdict.sameOutcome (v : Verdict) {s s' : State} (h : s.status.fault = s'.status.fault) :
    SameOutcome (v.outcome s) (v.outcome s') := by
  cases v with
  | fault c => exact ⟨rfl, rfl, rfl, rfl⟩
  | done r0 r1 rsc ovf ovfb perr => exact ⟨rfl, rfl, rfl, by simp [Status.complete, h]⟩
  | stop f => exact rfl

/-- The two outcomes are one verdict, taken in two states. -/
def OneVerdict (s s' : State) (o o' : StepOutcome) : Prop := ∃ v : Verdict, o = v.outcome s ∧ o' = v.outcome s'

section OneVerdict

variable (s s' : State)

theorem oneVerdict_fault (c : FaultCause) :
    OneVerdict s s' (.next (raiseFault c s)) (.next (raiseFault c s')) := ⟨.fault c, rfl, rfl⟩

theorem oneVerdict_complete (r0 r1 : Option Word) (rsc : Option Byte) (ovf ovfb : Bool) (perr : Option ParseError) :
    OneVerdict s s' (.next (complete r0 r1 rsc ovf ovfb perr s)) (.next (complete r0 r1 rsc ovf ovfb perr s')) :=
  ⟨.done r0 r1 rsc ovf ovfb perr, rfl, rfl⟩

theorem oneVerdict_deliverPair (p : Option FloorPair) :
    OneVerdict s s' (.next (deliverPair p s)) (.next (deliverPair p s')) := by
  cases p <;> exact oneVerdict_complete ..

theorem oneVerdict_deliverRounded (m : RoundingMode) (p : Option FloorPair) (y : Int) :
    OneVerdict s s' (.next (deliverRounded m p y s)) (.next (deliverRounded m p y s')) := by
  cases p with
  | none => exact oneVerdict_complete ..
  | some fp =>
    simp only [deliverRounded]
    split_ifs <;> exact oneVerdict_complete ..

theorem oneVerdict_deliverParsed (p : Parsed) :
    OneVerdict s s' (.next (deliverParsed p s)) (.next (deliverParsed p s')) := by
  cases p <;> exact oneVerdict_complete ..

end OneVerdict

/-- R19 and R74 for every command: states that agree on the operands of its row give it one verdict. -/
theorem exec_oneVerdict {i : Instr} {s s' : State} (h : SameOperands i s s') :
    OneVerdict s s' (exec i s) (exec i s') := by
  cases i with
  | tenpow n =>
    simp only [exec, execTenpow]
    split_ifs
    · exact oneVerdict_fault ..
    · exact oneVerdict_complete ..
  | mulp10 n =>
    have ha : s.a = s'.a := h
    simp only [exec, execMulp10, ha]
    split_ifs
    · exact oneVerdict_fault ..
    · exact oneVerdict_complete ..
    · exact oneVerdict_fault ..
  | cmulp10 n =>
    have ha : s.a = s'.a := h
    simp only [exec, execCmulp10, ha]
    split_ifs
    · exact oneVerdict_fault ..
    · exact oneVerdict_complete ..
    · exact oneVerdict_complete ..
  | adj s1 s2 =>
    obtain ⟨ha, hb⟩ := h
    simp only [exec, execAdj, ha, hb]
    split_ifs
    · exact oneVerdict_fault ..
    · exact oneVerdict_complete ..
    · exact oneVerdict_fault ..
  | cadj s1 s2 =>
    obtain ⟨ha, hb⟩ := h
    simp only [exec, execCadj, ha, hb]
    split_ifs
    · exact oneVerdict_fault ..
    · exact oneVerdict_complete ..
  | sdivf p =>
    obtain ⟨ha, hb⟩ := h
    simp only [exec, execSdivf, ha, hb]
    split_ifs
    · exact oneVerdict_fault ..
    · exact oneVerdict_fault ..
    · exact oneVerdict_deliverPair ..
  | dmdf =>
    obtain ⟨ha, hb, hc⟩ := h
    simp only [exec, execDmdf, ha, hb, hc]
    split_ifs
    · exact oneVerdict_fault ..
    · exact oneVerdict_fault ..
    · exact oneVerdict_deliverPair ..
  | divmodf =>
    obtain ⟨ha, hb⟩ := h
    simp only [exec, execDivmodf, ha, hb]
    split_ifs
    · exact oneVerdict_fault ..
    · exact oneVerdict_fault ..
    · exact oneVerdict_complete ..
  | divr m =>
    obtain ⟨ha, hb⟩ := h
    simp only [exec, execDivr, ha, hb]
    split_ifs
    · exact oneVerdict_fault ..
    · exact oneVerdict_fault ..
    · exact oneVerdict_complete ..
  | sdivr p m =>
    obtain ⟨ha, hb⟩ := h
    simp only [exec, execSdivr, ha, hb]
    split_ifs
    · exact oneVerdict_fault ..
    · exact oneVerdict_fault ..
    · exact oneVerdict_deliverRounded ..
  | mdtpr p m =>
    obtain ⟨ha, hb⟩ := h
    simp only [exec, execMdtpr, ha, hb]
    split_ifs
    · exact oneVerdict_fault ..
    · exact oneVerdict_deliverRounded ..
  | parse =>
    obtain ⟨htlen, hconfig, htxt⟩ := h
    have hread : readText s.txt s.tlen.toNat 0 = readText s'.txt s'.tlen.toNat 0 := by
      rw [← htlen]
      exact readText_congr _ 0 fun j _ hj => htxt j (by omega)
    simp only [exec, execParse, htlen, hconfig]
    rw [htlen] at hread
    split_ifs
    · exact oneVerdict_fault ..
    · rw [hread]
      cases readText s'.txt s'.tlen.toNat 0 with
      | ok t => exact oneVerdict_deliverParsed ..
      | error k => exact ⟨.stop (.unwrittenText k), rfl, rfl⟩

/-- Settles O54: one verdict gives the same outcome in states that agree on `FAULT`. -/
theorem outcomeDependsOnNamedOperandsOnly : Obligations.OutcomeDependsOnNamedOperandsOnly := by
  intro i s s' hsame hfault
  obtain ⟨v, hs, hs'⟩ := exec_oneVerdict hsame
  rw [hs, hs']
  exact v.sameOutcome hfault

/-- No command writes what a command reads. -/
theorem EndsAs.sameOperands {s t : State} (h : EndsAs s t) (i : Instr) : SameOperands i s t := by
  obtain ⟨ha, hb, hc, htlen, htxt, hconfig, -, -⟩ := h.frame
  cases i <;> simp [SameOperands, ha, hb, hc, htlen, htxt, hconfig]

/-- Settles O55: the operands are as before, so the verdict is the one already taken. -/
theorem sameCommandAgainGivesTheSameOutcome : Obligations.SameCommandAgainGivesTheSameOutcome := by
  intro i s t h
  obtain ⟨v, hs, ht⟩ := exec_oneVerdict ((exec_ends h).sameOperands i)
  rw [ht]
  exact v.outcome_again (hs.symm.trans h)

end Sys2Proof.Machine
end

section
/-! PROOFS. The pseudo-instructions of host scripts (30_encoding.md R86): the lines of `TEXT`, `IFSET` and `MOV`, run
step by step. -/

namespace Sys2Proof.Machine

open Sys2Proof.Reference

theorem run_succ_of_step {s t : State} (h : step s = .next t) (k : Nat) : core.run (k + 1) s = core.run k t := by
  have hstep : core.step s = .next t := h
  simp only [Host.Core.run]
  rw [hstep]

theorem run_two_of_steps {s t u : State} (h : step s = .next t) (h' : step t = .next u) :
    core.run 2 s = .next u :=
  (run_succ_of_step h 1).trans (run_succ_of_step h' 0)

/-! ### `TEXT` -/

/-- The buffer after a text is written byte by byte from address `i`. -/
def Memory.writeFrom (m : Memory) (i : Nat) : List Byte → Memory
  | [] => m
  | b :: t => Memory.writeFrom (Memory.write m i b) (i + 1) t

theorem Memory.read_writeFrom_of_lt {m : Memory} {i j : Nat} {t : List Byte} (h : j < i) :
    Memory.read (Memory.writeFrom m i t) j = Memory.read m j := by
  induction t generalizing m i with
  | nil => rfl
  | cons b t ih => rw [Memory.writeFrom, ih (by omega), Memory.read_write_ne _ _ (by omega)]

/-- Above the text every byte is as before. -/
theorem Memory.read_writeFrom_of_ge {m : Memory} {i j : Nat} {t : List Byte} (h : i + t.length ≤ j) :
    Memory.read (Memory.writeFrom m i t) j = Memory.read m j := by
  induction t generalizing m i with
  | nil => rfl
  | cons b t ih =>
    rw [List.length_cons] at h
    rw [Memory.writeFrom, ih (by omega), Memory.read_write_ne _ _ (by omega)]

/-- The bytes of the text stand in their order. -/
theorem Memory.read_writeFrom {m : Memory} {i j : Nat} {t : List Byte} (h : j < t.length) :
    Memory.read (Memory.writeFrom m i t) (i + j) = some t[j] := by
  induction t generalizing m i j with
  | nil => exact absurd h (Nat.not_lt_zero j)
  | cons b t ih =>
    rw [Memory.writeFrom]
    cases j with
    | zero =>
      have hkept : Memory.read (Memory.writeFrom (Memory.write m i b) (i + 1) t) i =
          Memory.read (Memory.write m i b) i := Memory.read_writeFrom_of_lt (Nat.lt_succ_self i)
      exact hkept.trans (Memory.read_write_same m i b)
    | succ j =>
      rw [show i + (j + 1) = i + 1 + j by omega, ih (Nat.lt_of_succ_lt_succ h)]
      rfl

/-- The lines of a text write it, one byte a step, and the run goes on with the lines after them. -/
theorem run_textLines (t : List Byte) {s : State} {i : Nat} {rest : List HostAction} (k : Nat)
    (hs : s.script = textLines i t ++ rest) (hmax : i + t.length ≤ s.config.textMax) :
    core.run (t.length + k) s = core.run k (popped { s with txt := Memory.writeFrom s.txt i t } rest) := by
  induction t generalizing s i with
  | nil =>
    rw [List.length_nil, Nat.zero_add]
    congr 1
    rw [popped, Memory.writeFrom, ← show s.script = rest from hs]
  | cons b t ih =>
    rw [List.length_cons] at hmax ⊢
    have hstep := (step_popped hs).trans (perform_writeText_of_lt b (show i < s.config.textMax by omega))
    rw [Nat.add_right_comm, run_succ_of_step hstep, ih rfl (by simp only [popped]; omega)]
    rfl

/-- Settles O56: the lines of the text, then the write of its length, which `TLEN` can hold. -/
theorem textLinesLoadTheText : Obligations.TextLinesLoadTheText := by
  intro s t rest hlen hmax hs
  have hscript : s.script = textLines 0 t ++ (.writeTlen (BitVec.ofNat 16 t.length) :: rest) := by
    simpa [scriptText] using hs
  have hrun := run_textLines t 1 hscript (by omega)
  have hlast := run_succ_of_step
    (step_popped_cons { s with txt := Memory.writeFrom s.txt 0 t } (.writeTlen (BitVec.ofNat 16 t.length)) rest) 0
  refine ⟨_, hrun.trans hlast, ⟨?_, fun j hj => ?_⟩, fun j hj => ?_, rfl⟩
  · rw [writeTlenReg_tlen, BitVec.toNat_ofNat, Nat.mod_eq_of_lt (by omega)]
  · simpa [popped] using Memory.read_writeFrom (m := s.txt) (i := 0) hj
  · exact Memory.read_writeFrom_of_ge (by omega)

/-! ### `IFSET` -/

/-- A test on the value read is a test on the `STATUS` word: the zero extension keeps the low 32 bits (R86). -/
theorem holds_setWidth_iff (test : StatusTest) (w : BitVec 32) :
    test.holds (w.setWidth 128) = true ↔ TestMet test w := by
  cases test with
  | perrIs k =>
    have hbits : (w.setWidth 128).extractLsb' 5 3 = w.extractLsb' 5 3 := by
      ext i hi
      simp
      omega
    rw [StatusTest.holds, TestMet, hbits, beq_iff_eq]
  | _ => simp [StatusTest.holds, TestMet]

theorem step_skip {s : State} {n : Nat} {rest : List HostAction} (h : s.script = .skip n :: rest) :
    step s = .next (popped s (rest.drop n)) := step_popped h

/-- The lines to come after a test on the value read last. -/
theorem step_skipUnless {s : State} {v : Word} {reads : List Word} (h : s.hostReads = v :: reads) (test : StatusTest)
    (n : Nat) (rest : List HostAction) :
    step (popped s (.skipUnless test n :: rest)) =
      .next (popped s (if test.holds v then rest else rest.drop n)) := by
  have hperform : perform (.skipUnless test n) (popped s rest) =
      .next (if test.holds v then popped s rest else skipLines n (popped s rest)) := by
    simp only [perform, skipLinesUnless, popped, h]
  rw [step_popped_cons, hperform]
  split_ifs <;> rfl

/-- The two lines before the groups: the host reads `STATUS` and takes the group that the test selects. -/
theorem run_ifSet {s : State} {test : StatusTest} {thenLines elseLines rest : List HostAction}
    (hs : s.script = scriptIfSet test thenLines elseLines ++ rest) :
    core.run 2 s =
      .next (popped (hostTakes (s.statusWord.setWidth 128) s)
        (if test.holds (s.statusWord.setWidth 128) then thenLines ++ .skip elseLines.length :: (elseLines ++ rest)
        else elseLines ++ rest)) := by
  have hscript : s.script = .readReg .status :: .skipUnless test (thenLines.length + 1) ::
      (thenLines ++ .skip elseLines.length :: (elseLines ++ rest)) := by
    simpa [scriptIfSet] using hs
  have hdrop : (thenLines ++ .skip elseLines.length :: (elseLines ++ rest)).drop (thenLines.length + 1) =
      elseLines ++ rest := by
    rw [List.drop_append]
    simp
  have htest := run_two_of_steps (step_readReg_of_some hscript rfl)
    (step_skipUnless (hostTakes_hostReads _ s) test (thenLines.length + 1) _)
  rwa [hdrop] at htest

/-- Settles O57: the read of `STATUS`, then the skip that the test decides; a skip drops lines of the script. -/
theorem ifSetChoosesOneGroup : Obligations.IfSetChoosesOneGroup := by
  refine ⟨fun s test thenLines elseLines rest hs => ⟨fun hmet => ?_, fun hmet => ?_⟩, fun s elseLines rest hs => ?_,
    fun s n rest hs => step_skip hs, holds_setWidth_iff⟩
  · have hholds := (holds_setWidth_iff test s.statusWord).mpr hmet
    rw [run_ifSet hs, if_pos hholds]
    rfl
  · have hholds := mt (holds_setWidth_iff test s.statusWord).mp hmet
    rw [run_ifSet hs, if_neg hholds]
    rfl
  · rw [step_skip hs, List.drop_left]

/-! ### `MOV` -/

/-- The two accesses of `MOV`: the value read is written to the operand register. -/
theorem run_mov {s : State} {r : OperandReg} {src : HostReg} {rest : List HostAction} {v : Word}
    (hs : s.script = scriptMov r src ++ rest) (hv : readHostReg src s = some v) :
    core.run 2 s = .next (writeOperandReg r v (popped (hostTakes v s) rest)) :=
  run_two_of_steps (step_readReg_of_some (rest := .writeLastRead r :: rest) hs hv)
    (step_popped_cons (hostTakes v s) (.writeLastRead r) rest)

theorem writeOperandReg_eq (r : OperandReg) (v : Word) (s : State) :
    writeOperandReg r v s =
      { s with a := if r = .a then v else s.a, b := if r = .b then v else s.b, c := if r = .c then v else s.c } := by
  cases r <;> rfl

/-- Settles O58: each result register is read as its value. -/
theorem movLinesCopyAResult : Obligations.MovLinesCopyAResult := by
  intro s r rest
  refine ⟨fun v hv hs => ?_, fun v hv hs => ?_, fun k hk hs => ?_⟩
  · exact (run_mov hs hv).trans (congrArg _ (writeOperandReg_eq ..))
  · exact (run_mov hs hv).trans (congrArg _ (writeOperandReg_eq ..))
  · exact (run_mov hs (congrArg (Option.map _) hk)).trans (congrArg _ (writeOperandReg_eq ..))

end Sys2Proof.Machine
end
